-- ==== Sys2Proof/Word.lean ====
section
/-! DEFINITION. The cell and register type of the core (00_scope.md R7, R12). -/

namespace Sys2Proof

/-- R12: a `Word` is an integer of `[-2^63, 2^63 - 1]` held as a 64-bit two's-complement pattern;
`BitVec.toInt` reads that integer. -/
abbrev Word := BitVec 64

/-- R12: `wrap64(n) = ((n + 2^63) mod 2^64) - 2^63`, the word whose signed value is congruent to `n`
modulo `2^64` (`BitVec.ofInt`; the formula is the law `wrap64_toInt` of Laws/Arith.lean). -/
def wrap64 (n : Int) : Word := BitVec.ofInt 64 n

end Sys2Proof
end

