-- ==== Sys2Proof/Config.lean ====
section
/-! DEFINITION. What the spec leaves open, as constants with no body, and the one bound it fixes. -/

namespace Sys2Proof.Config

/-- R8, R192, D8 (OPEN): how far HALT moves the pc, 0 or 1. Nothing constrains which (log 7). -/
opaque haltPcAdvance : Fin 2

/-- R153, D12: the `n`-th answer of the input producer, any `Word`. Nothing constrains it (log 6). -/
opaque producerAnswer : Nat → Word

/-- R8, D14: the largest number of memory cells. -/
def maxMemLen : Nat := 2 ^ 62

end Sys2Proof.Config
end

