-- ==== Sys2Proof/Machine/State.lean ====
section
/-! DEFINITION. The state of one core (10_state.md R21, R35), the host commands it can be given
(46_run_control.md R200), the four fatal errors (60_exceptions.md R230), and how a step can stop. -/

namespace Sys2Proof.Machine

/-- R29: the run state. -/
inductive RunState where
  | idle      -- 0, IDLE
  | running   -- 1, RUNNING
  | halted    -- 2, HALTED
  | faulted   -- 3, FAULTED
deriving DecidableEq, Repr

/-- R30, R230: what `faultCause` holds. -/
inductive FaultCause where
  | none                        -- 0
  | outOfRange                  -- 1
  | unsupportedAddressingMode   -- 2
  | unimplementedOpcode         -- 3
  | inputExhausted              -- 4
deriving DecidableEq, Repr

/-- R230: the four fatal errors an instruction raises, each with what it carries. -/
inductive FatalError where
  | outOfRange
  | unsupportedAddressingMode (digit : Nat)
  | unimplementedOpcode (op : Int)
  | inputExhausted
deriving DecidableEq, Repr

/-- R209: what an INSPECT reads: a status field by its host-visible index (R21), an entry of the
input queue, or a memory cell. -/
inductive Query where
  | status (index : Nat)
  | queueEntry (i : Nat)
  | cell (a : Int)
deriving DecidableEq, Repr

/-- R200: the commands the host gives an existing machine. CONSTRUCT makes one:
`Sys2Proof.Machine.construct`. -/
inductive HostCommand where
  | push (v : Word)
  | run
  | inspect (q : Query)
deriving DecidableEq, Repr

/-- R50: the cells whose value is not 0, as (index, value) in rising order of index; a cell of
`[0, memLen)` that is not listed holds 0, the spec's own fill (R59, R260). -/
abbrev Memory := List (Nat × Word)

/-- R21: the state of one core instance: exactly the ten fields of its table. `outValid` is the
valid bit of `lastOut` and no field beside it (R25, log 11). -/
structure CoreState where
  /-- R50. -/
  mem : Memory
  /-- R22: the program counter, index 0. -/
  pc : Word
  /-- R23: the relative base, index 1. -/
  rb : Word
  /-- R25: the last output, `none` while `outValid` is false, indices 2 and 3. -/
  lastOut : Option Word
  /-- R24: the halted flag, index 4. -/
  halted : Bool
  /-- R29: index 5. -/
  runState : RunState
  /-- R30: index 6. -/
  faultCause : FaultCause
  /-- R30: index 7. -/
  faultInfo : Word
  /-- R26: every input value ever supplied, oldest first, its length at index 8. -/
  inQueue : List Word
  /-- R27: the index in `inQueue` of the next value read-input consumes, index 9. -/
  inCursor : Nat
deriving DecidableEq, Repr

/-- R8: the parameters that CONSTRUCT fixes for the life of an instance. They are no state of the
core: no step changes them (R51, R201). -/
structure Params where
  /-- R8, R51: `MEM_LEN`, the number of memory cells. -/
  memLen : Nat
  /-- R8, R28, R201: `PRODUCER_PRESENT`. -/
  producerPresent : Bool
deriving DecidableEq, Repr

/-- R17: the two agents outside the core, the input producer and the host, as far as a step needs
them. They are no state of the core: the core's own fields are R21's. -/
structure Agents where
  /-- The producer: how many answers it has given, the index of the next draw of
  `Config.producerAnswer` (R153, log 6). -/
  producerDraws : Nat
  /-- The host: its commands not yet taken, the next one first (R200, log 4). -/
  hostCommands : List HostCommand
deriving DecidableEq, Repr

/-- The machine a step moves: the state of one core (R21), the parameters of its instance (R8) and
the agents it stands among (R17). -/
structure State extends CoreState, Params, Agents
deriving DecidableEq, Repr

/-- R35, R260: the state right after construction, here of the empty image with no pre-size and no
producer, and with no host command pending (DESIGN CHOICE, log 1, log 4, log 6). -/
def State.reset : State where
  memLen := 0
  mem := []
  pc := 0
  rb := 0
  lastOut := none
  halted := false
  runState := .idle
  faultCause := .none
  faultInfo := 0
  inQueue := []
  inCursor := 0
  producerPresent := false
  producerDraws := 0
  hostCommands := []

/-- How a step stops the machine for good. No instruction answers one: an instruction that raises
takes its fault entry, a next state (R232). -/
inductive Fault where
  /-- Raised by `step` in a FAULTED machine for which no host command is pending: the core takes no
  further step and reports the fatal error it recorded (R207, R242). Safe: FAULTED is never left,
  and a faulted machine is never a good final state (R36). -/
  | fatal (cause : FaultCause) (info : Word)
deriving DecidableEq, Repr

/-- What the model declines, each by name. -/
inductive Refusal where
  /-- Raised by `exec` for an instruction with no meaning; no instruction of this model. Safe. -/
  | notModelled (mnemonic : String)
  /-- Raised by the RUN command in FAULTED: outside the contract, refused (R207, D13). Safe. -/
  | runAfterFault
  /-- Raised by the PUSH command in FAULTED (R203, R242, D13). Safe. -/
  | pushAfterFault
  /-- Raised by an INSPECT of an index out of range (R209, D23). Safe. -/
  | inspectOutOfRange
  /-- Raised by a host command given while the core is RUNNING, which the interface does not have
  (R200, R203, R209, D11); `step` never gives one. Safe. -/
  | hostWhileRunning
  /-- Raised by CONSTRUCT with `TARGET_SIZE < L_IMG` (R260, D14). Safe. -/
  | targetSizeTooSmall
  /-- Raised by CONSTRUCT with more than `2^62` cells (R8, D14). Safe. -/
  | memoryTooLarge
deriving DecidableEq, Repr

/-- The three outcomes of a step of this machine. -/
abbrev Result := Host.Outcome State Fault Refusal

end Sys2Proof.Machine
end

