-- ==== Sys2Proof/Machine/Flags.lean ====
section
/-! DEFINITION. The ALU's conditions (41_arithmetic.md R143) and the computed status bits. The core
has no condition codes (10_state.md R31): a comparison's result is a word. -/

namespace Sys2Proof.Machine

/-- A truth value as the word 1 or 0 (R180). -/
def boolWord (b : Bool) : Word := if b then 1 else 0

/-- R143: `ALU_LT`, signed. -/
def aluLt (a b : Word) : Word := boolWord (decide (a.toInt < b.toInt))

/-- R143: `ALU_EQ`. -/
def aluEq (a b : Word) : Word := boolWord (decide (a = b))

/-- R143: `ALU_NZ`. -/
def aluNz (a : Word) : Bool := decide (a ≠ 0)

/-- R25: the valid bit of `lastOut`. -/
def CoreState.outValid (s : CoreState) : Bool := s.lastOut.isSome

end Sys2Proof.Machine
end

