-- ==== Sys2Proof/Machine/Ops.lean ====
section
/-! DEFINITION. The named operations over memory and the registers: the memory-access arbiter
(20_memory.md), the register writes (10_state.md R34), taking a fault (60_exceptions.md R232), and
the input queue (42_io.md R152). -/

namespace Sys2Proof.Machine

/-! ### Memory as data -/

/-- The value of cell `a`: the listed value, or 0 (R59). -/
def Memory.read : Memory → Nat → Word
  | [], _ => 0
  | (b, v) :: m, a => if a = b then v else Memory.read m a

/-- The memory with no entry for `a`. -/
def Memory.erase (m : Memory) (a : Nat) : Memory := m.filter fun c => decide (c.1 ≠ a)

/-- The memory with the entry `(a, v)` before the first larger index. -/
def Memory.insert : Memory → Nat → Word → Memory
  | [], a, v => [(a, v)]
  | (b, u) :: m, a, v => if a < b then (a, v) :: (b, u) :: m else (b, u) :: Memory.insert m a v

/-- The memory after `mem[a] <- v`; writing 0, what an unlisted cell reads as, lists nothing. -/
def Memory.write (m : Memory) (a : Nat) (v : Word) : Memory :=
  if v = 0 then m.erase a else Memory.insert (m.erase a) a v

/-- The canonical form: indices strictly rising, no entry equal to 0. -/
abbrev Memory.wf (m : Memory) : Prop :=
  m.Pairwise (fun c d => c.1 < d.1) ∧ ∀ c ∈ m, c.2 ≠ 0

/-- The memory that holds an image from index `i` on, and 0 elsewhere (R59, R260). -/
def Memory.ofImage : Nat → List Word → Memory
  | _, [] => []
  | i, w :: ws => if w = 0 then Memory.ofImage (i + 1) ws else (i, w) :: Memory.ofImage (i + 1) ws

/-! ### The memory-access arbiter -/

/-- R52: the address is a valid cell index. -/
abbrev State.inRange (s : State) (a : Int) : Prop := 0 ≤ a ∧ a < s.memLen

/-- R53: `MemRead(a, 1)`, the bounds-checked read of one cell, with no side effect. -/
def memRead (s : State) (a : Int) : Except FatalError Word :=
  if s.inRange a then .ok (s.mem.read a.toNat) else .error .outOfRange

/-- R54: `MemWrite(a, 1, v)`; the address was checked when it was resolved (R93). -/
def memWrite (s : State) (a : Nat) (v : Word) : State := { s with mem := s.mem.write a v }

/-- R121: the fetch, `MemRead(pc, 1)`. -/
def fetch (s : State) : Except FatalError Word := memRead s s.pc.toInt

/-! ### Register writes (R34) -/

/-- R125: `pc <- pc + width`. -/
def State.advance (s : State) (width : Nat) : State := { s with pc := s.pc + BitVec.ofNat 64 width }

/-- R125: `pc <- t`, a taken jump; any word may be loaded (R22). -/
def State.jump (s : State) (t : Word) : State := { s with pc := t }

/-- R190: `rb <- v`. -/
def State.setBase (s : State) (v : Word) : State := { s with rb := v }

/-- R160: `lastOut <- v; outValid <- true`. -/
def State.emit (s : State) (v : Word) : State := { s with lastOut := some v }

/-- R160, R205: the outcome SUSPEND, the RUN returns to the host. -/
def State.suspend (s : State) : State := { s with runState := .idle }

/-- R192, R205: `halted <- true` and the outcome HALT, the RUN returns to the host. -/
def State.halt (s : State) : State := { s with halted := true, runState := .halted }

/-! ### Taking a fault -/

/-- R230: the code recorded for an error. -/
def FatalError.cause : FatalError → FaultCause
  | .outOfRange => .outOfRange
  | .unsupportedAddressingMode _ => .unsupportedAddressingMode
  | .unimplementedOpcode _ => .unimplementedOpcode
  | .inputExhausted => .inputExhausted

/-- R230: the value recorded for an error: the offending digit, the raw opcode, or 0. -/
def FatalError.info : FatalError → Word
  | .outOfRange => 0
  | .unsupportedAddressingMode d => wrap64 d
  | .unimplementedOpcode op => wrap64 op
  | .inputExhausted => 0

/-- R232: fault entry, for the state before the faulting step: the cause, its info and FAULTED are
recorded and nothing else changes, so `pc` stays at the faulting instruction (R126). There is no
return from it: FAULTED is never left (R240, R242). -/
def State.enterFault (s : State) (e : FatalError) : State :=
  { s with faultCause := e.cause, faultInfo := e.info, runState := .faulted }

/-- R15, R126: an instruction completes with all its writes, or raises and writes nothing: `s` is
the state before the instruction. -/
def complete (s : State) : Except FatalError State → Result
  | .ok t => .next t
  | .error e => .next (s.enterFault e)

/-! ### The input queue -/

/-- R152: `NextInput()`: the queued value at the cursor; else the producer's answer, appended to the
queue and consumed as the next value (R153); else `InputExhausted`. Returns the value and the state
with the queue updated. -/
def nextInput (s : State) : Except FatalError (Word × State) :=
  match s.inQueue[s.inCursor]? with
  | some v => .ok (v, { s with inCursor := s.inCursor + 1 })
  | none =>
    if s.producerPresent then
      let p := Config.producerAnswer s.producerDraws
      .ok (p, { s with inQueue := s.inQueue ++ [p], inCursor := s.inCursor + 1,
                       producerDraws := s.producerDraws + 1 })
    else .error .inputExhausted

/-! ### Placing cells where the next fetch reads (for `State.withFetchWord`) -/

/-- The memory after the cells are written from index `a` on. -/
def Memory.writeAll : Memory → Nat → List Word → Memory
  | m, _, [] => m
  | m, a, w :: ws => Memory.writeAll (m.write a w) (a + 1) ws

/-- The cell index at which a placed instruction of at most four cells can stand: the pc, or cell 0,
the entry point (R261), when the pc names no cell that a memory of at most `2^62` cells can have. -/
def State.placeAt (s : State) : Nat :=
  if 0 ≤ s.pc.toInt ∧ s.pc.toInt + 4 ≤ Config.maxMemLen then s.pc.toNat else 0

/-- The state in which a RUN is in progress and the next fetch reads the first of the cells, the
others following it: the cells are written at the pc, memory is long enough for them, and what keeps
a core from taking a step (IDLE, HALTED, FAULTED) is cleared. It stands for the host's load of a
program and its RUN (log 2). -/
def State.placeCells (s : State) (cells : List Word) : State :=
  { s with
    memLen := max s.memLen (s.placeAt + cells.length)
    mem := s.mem.writeAll s.placeAt cells
    pc := BitVec.ofNat 64 s.placeAt
    halted := false
    runState := .running
    faultCause := .none
    faultInfo := 0 }

end Sys2Proof.Machine
end

