-- ==== Sys2Proof/Machine/HostPort.lean ====
section
/-! DEFINITION. The host interface: CONSTRUCT, PUSH, RUN and INSPECT (46_run_control.md,
70_reset_and_hazards.md R260). -/

namespace Sys2Proof.Machine

/-- R29, D10: the encoding of the run state. -/
def RunState.code : RunState → Nat
  | .idle => 0
  | .running => 1
  | .halted => 2
  | .faulted => 3

/-- R230, D15: the encoding of the fault cause. -/
def FaultCause.code : FaultCause → Nat
  | .none => 0
  | .outOfRange => 1
  | .unsupportedAddressingMode => 2
  | .unimplementedOpcode => 3
  | .inputExhausted => 4

/-- R8, R260: the number of cells of a construction. -/
def constructLen (image : List Word) : Option Nat → Nat
  | none => image.length
  | some n => n

/-- R260: CONSTRUCT(IMAGE, TARGET_SIZE, PRODUCER_PRESENT), the core's only reset: a new machine with
a copy of the image, zeros above it, and every register at its reset value (R35). -/
def construct (image : List Word) (targetSize : Option Nat) (producerPresent : Bool) : Result :=
  if constructLen image targetSize < image.length then .refused .targetSizeTooSmall
  else if Config.maxMemLen < constructLen image targetSize then .refused .memoryTooLarge
  else .next { State.reset with
    memLen := constructLen image targetSize
    mem := Memory.ofImage 0 image
    producerPresent := producerPresent }

/-- R203: PUSH(v), which appends to the input queue. -/
def hostPush (v : Word) (s : State) : Result :=
  match s.runState with
  | .idle => .next { s with inQueue := s.inQueue ++ [v] }
  | .halted => .next { s with inQueue := s.inQueue ++ [v] }
  | .faulted => .refused .pushAfterFault
  | .running => .refused .hostWhileRunning

/-- R204, R206, R207: RUN starts an IDLE core, does nothing to a HALTED one, and is outside the
contract of a FAULTED one. -/
def hostRun (s : State) : Result :=
  match s.runState with
  | .idle => .next { s with runState := .running }
  | .halted => .next s
  | .faulted => .refused .runAfterFault
  | .running => .refused .hostWhileRunning

/-- R21, R209: the status field of a host-visible index; `some none` is the read of `lastOut` that
returns no value, `none` an index out of range. -/
def statusField (s : CoreState) : Nat → Option (Option Int)
  | 0 => some (some s.pc.toInt)
  | 1 => some (some s.rb.toInt)
  | 2 => some (s.lastOut.map BitVec.toInt)
  | 3 => some (some s.outValid.toNat)
  | 4 => some (some s.halted.toNat)
  | 5 => some (some s.runState.code)
  | 6 => some (some s.faultCause.code)
  | 7 => some (some s.faultInfo.toInt)
  | 8 => some (some s.inQueue.length)
  | 9 => some (some s.inCursor)
  | _ => none

/-- R209: what an index of INSPECT holds; `none` when it is out of range. -/
def inspectField (s : State) : Query → Option (Option Int)
  | .status index => statusField s.toCoreState index
  | .queueEntry i => (s.inQueue[i]?).map fun v => some v.toInt
  | .cell a => if s.inRange a then some (some (s.mem.read a.toNat).toInt) else none

/-- R209: INSPECT: the value read (`none` when `lastOut` has no value), or the refusal. -/
def inspect (q : Query) (s : State) : Except Refusal (Option Int) :=
  match s.runState with
  | .running => .error .hostWhileRunning
  | _ =>
    match inspectField s q with
    | some v => .ok v
    | none => .error .inspectOutOfRange

/-- R209: the INSPECT command as a transaction, which changes nothing. -/
def hostInspect (q : Query) (s : State) : Result :=
  match inspect q s with
  | .ok _ => .next s
  | .error r => .refused r

/-- R200: one host command. -/
def hostCommand : HostCommand → State → Result
  | .push v => hostPush v
  | .run => hostRun
  | .inspect q => hostInspect q

/-- A step of a machine that is not RUNNING: the host's next command is taken. With none pending
nothing happens (R248), except that a FAULTED machine has stopped and reports its fault (log 8). -/
def hostStep (s : State) : Result :=
  match s.hostCommands with
  | c :: rest => hostCommand c { s with hostCommands := rest }
  | [] =>
    match s.runState with
    | .faulted => .fault (.fatal s.faultCause s.faultInfo)
    | _ => .next s

/-- R205: what a RUN gives back to the host. -/
inductive RunReturn where
  | output (v : Option Word)
  | halted
  | fault (cause : FaultCause) (info : Word)
deriving DecidableEq, Repr

/-- R205: what a RUN that ended in `s` gave back; `none` while the RUN goes on. -/
def runReturn (s : State) : Option RunReturn :=
  match s.runState with
  | .idle => some (.output s.lastOut)
  | .halted => some .halted
  | .faulted => some (.fault s.faultCause s.faultInfo)
  | .running => none

end Sys2Proof.Machine
end

