-- ==== Sys2Proof/Syntax.lean ====
section
/-! DEFINITION. The instruction set (30_encoding.md R87) and the assembly notation (R110 to R113). -/

namespace Sys2Proof

/-- R90: the addressing mode a mode digit selects. `unassigned d` is a digit with no mode (3 to 9);
an instruction word may hold one, and resolving that argument raises. -/
inductive Mode where
  | position
  | immediate
  | relative
  | unassigned (digit : Nat)
deriving DecidableEq, Repr

/-- R88: the role of an argument, resolved by `ReadOperand` or by `WriteAddress`. -/
inductive Role where
  | read
  | dst
deriving DecidableEq, Repr

/-- R87: the ten instructions. The fields are the mode digits of the word, decoded eagerly as R89
allows; the raw arguments stay in memory until they are resolved. -/
inductive Instr where
  | add (m1 m2 m3 : Mode)   -- ADD, opcode 1
  | mul (m1 m2 m3 : Mode)   -- MUL, opcode 2
  | inp (m1 : Mode)         -- IN, opcode 3
  | out (m1 : Mode)         -- OUT, opcode 4
  | jt (m1 m2 : Mode)       -- JT, opcode 5
  | jf (m1 m2 : Mode)       -- JF, opcode 6
  | lt (m1 m2 m3 : Mode)    -- LT, opcode 7
  | eq (m1 m2 m3 : Mode)    -- EQ, opcode 8
  | arb (m1 : Mode)         -- ARB, opcode 9
  | halt                    -- HALT, opcode 99
deriving DecidableEq, Repr

/-- R87, R88: the arguments of an instruction in offset order, each with its role. -/
def Instr.args : Instr → List (Role × Mode)
  | .add m1 m2 m3 => [(.read, m1), (.read, m2), (.dst, m3)]
  | .mul m1 m2 m3 => [(.read, m1), (.read, m2), (.dst, m3)]
  | .inp m1 => [(.dst, m1)]
  | .out m1 => [(.read, m1)]
  | .jt m1 m2 => [(.read, m1), (.read, m2)]
  | .jf m1 m2 => [(.read, m1), (.read, m2)]
  | .lt m1 m2 m3 => [(.read, m1), (.read, m2), (.dst, m3)]
  | .eq m1 m2 m3 => [(.read, m1), (.read, m2), (.dst, m3)]
  | .arb m1 => [(.read, m1)]
  | .halt => []

/-- R110: an operand of the assembly notation, `n`, `#n` or `@n`, with labels already replaced by
their cell index. -/
inductive Operand where
  | position (n : Word)    -- n
  | immediate (n : Word)   -- #n
  | relative (n : Word)    -- @n
deriving DecidableEq, Repr

/-- R110, R111: a statement of the assembly notation: a mnemonic with its operands, or the directive
`.word`. -/
inductive Stmt where
  | add (a b d : Operand)
  | mul (a b d : Operand)
  | inp (d : Operand)
  | out (a : Operand)
  | jt (c t : Operand)
  | jf (c t : Operand)
  | lt (a b d : Operand)
  | eq (a b d : Operand)
  | arb (a : Operand)
  | halt
  | word (vs : List Word)
deriving DecidableEq, Repr

/-- R113: the five pseudo-instructions. -/
inductive Pseudo where
  | jmp (t : Operand)
  | mov (s d : Operand)
  | clr (d : Operand)
  | nop
  | neg (s d : Operand)
deriving DecidableEq, Repr

end Sys2Proof
end

