-- ==== Sys2Proof/WellFormed.lean ====
section
/-! DEFINITION. Which instruction terms some word encodes, and which of them have a legal mode in
every role (30_encoding.md R83, R94). -/

namespace Sys2Proof

/-- R83, R90: a term stands for a decimal digit in exactly one way: 0, 1 and 2 have a name, so
`unassigned` holds 3 to 9 only. -/
def Mode.wellFormed : Mode → Bool
  | .unassigned d => decide (3 ≤ d ∧ d ≤ 9)
  | _ => true

/-- R94: a read argument accepts the digits 0, 1 and 2; a destination accepts 0 and 2. -/
def Mode.legal : Role → Mode → Bool
  | .read, .position => true
  | .read, .immediate => true
  | .read, .relative => true
  | .read, .unassigned _ => false
  | .dst, .position => true
  | .dst, .immediate => false
  | .dst, .relative => true
  | .dst, .unassigned _ => false

/-- Every mode of the instruction is a digit a word can hold. A well-formed instruction may still
hold a digit that is illegal for its role: such a word decodes, and raises when it is executed (R94). -/
def Instr.wellFormed (i : Instr) : Bool := i.args.all fun a => a.2.wellFormed

/-- R94: every argument's mode is legal for its role, so that no argument of the instruction raises
`UnsupportedAddressingMode`. -/
def Instr.legalModes (i : Instr) : Bool := i.args.all fun a => a.2.legal a.1

end Sys2Proof
end

