-- ==== Sys2Proof/Decode.lean ====
section
/-! DEFINITION. The instruction decoder (30_encoding.md R80 to R97), the encoder, the assembly
notation's cells (R112, R113), and the host's view of a table word. -/

namespace Sys2Proof

/-- R11: integer division rounded toward zero. -/
def tdiv (a b : Int) : Int := Int.tdiv a b

/-- R11: the remainder of `tdiv`, with the sign of the dividend. -/
def trem (a b : Int) : Int := a - b * tdiv a b

/-- R13: the decimal digit of `w` at position `k`, the units digit at position 0. -/
def dig (w : Word) (k : Nat) : Int := trem (tdiv w.toInt (10 ^ k)) 10

/-- R82: the opcode field. -/
def opcodeField (w : Word) : Int := trem w.toInt 100

/-- R90: the mode a digit selects. -/
def Mode.ofDigit (d : Int) : Mode :=
  if d = 0 then .position
  else if d = 1 then .immediate
  else if d = 2 then .relative
  else .unassigned d.toNat

/-- R90: the digit of a mode. -/
def Mode.digit : Mode → Nat
  | .position => 0
  | .immediate => 1
  | .relative => 2
  | .unassigned d => d

/-- R83: the mode of the argument at offset `k`, the digit at position `k + 1`. -/
def modeField (w : Word) (k : Nat) : Mode := Mode.ofDigit (dig w (k + 1))

/-- Why a word is no instruction: R89's `INVALID(op)`, with the raw opcode. -/
inductive DecodeError where
  | unimplementedOpcode (op : Int)
deriving DecidableEq, Repr

/-- R89: the decoder, total on words. The opcode alone selects the instruction (R86, R87); the mode
digits it carries are those of the arguments the opcode has, and no other digit is examined (R85). -/
def decode (w : Word) : Except DecodeError Instr :=
  let op := opcodeField w
  if op = 1 then .ok (.add (modeField w 1) (modeField w 2) (modeField w 3))
  else if op = 2 then .ok (.mul (modeField w 1) (modeField w 2) (modeField w 3))
  else if op = 3 then .ok (.inp (modeField w 1))
  else if op = 4 then .ok (.out (modeField w 1))
  else if op = 5 then .ok (.jt (modeField w 1) (modeField w 2))
  else if op = 6 then .ok (.jf (modeField w 1) (modeField w 2))
  else if op = 7 then .ok (.lt (modeField w 1) (modeField w 2) (modeField w 3))
  else if op = 8 then .ok (.eq (modeField w 1) (modeField w 2) (modeField w 3))
  else if op = 9 then .ok (.arb (modeField w 1))
  else if op = 99 then .ok .halt
  else .error (.unimplementedOpcode op)

/-- R87: the opcode of an instruction. -/
def Instr.opcode : Instr → Nat
  | .add _ _ _ => 1
  | .mul _ _ _ => 2
  | .inp _ => 3
  | .out _ => 4
  | .jt _ _ => 5
  | .jf _ _ => 6
  | .lt _ _ _ => 7
  | .eq _ _ _ => 8
  | .arb _ => 9
  | .halt => 99

/-- R87: the width of an instruction in cells. -/
def Instr.width : Instr → Nat
  | .add _ _ _ => 4
  | .mul _ _ _ => 4
  | .inp _ => 2
  | .out _ => 2
  | .jt _ _ => 3
  | .jf _ _ => 3
  | .lt _ _ _ => 4
  | .eq _ _ _ => 4
  | .arb _ => 2
  | .halt => 1

/-- R80: `100*m1 + 1000*m2 + 10000*m3`, for the arguments an instruction has; `p` is the place value
of the first of them. -/
def modeDigits : Nat → List (Role × Mode) → Nat
  | _, [] => 0
  | p, (_, m) :: rest => p * m.digit + modeDigits (10 * p) rest

/-- R96: the canonical word of an instruction, every unused digit zero. -/
def encode (i : Instr) : Word := wrap64 (i.opcode + modeDigits 100 i.args : Nat)

/-- R110: the mode of an operand's syntax. -/
def Operand.mode : Operand → Mode
  | .position _ => .position
  | .immediate _ => .immediate
  | .relative _ => .relative

/-- R110: the value of an operand, the raw argument cell. -/
def Operand.value : Operand → Word
  | .position n => n
  | .immediate n => n
  | .relative n => n

/-- R113: the statement a pseudo-instruction stands for. -/
def Pseudo.expand : Pseudo → Stmt
  | .jmp t => .jt (.immediate 1) t
  | .mov s d => .add s (.immediate 0) d
  | .clr d => .add (.immediate 0) (.immediate 0) d
  | .nop => .jt (.immediate 0) (.immediate 0)
  | .neg s d => .mul s (.immediate (wrap64 (-1))) d

/-- R112: one instruction's cells, the canonical word and then the operand values in order; refused
(`none`) when a mode is illegal for its role, as an immediate destination is. -/
def assembleInstr (i : Instr) (ops : List Operand) : Option (List Word) :=
  if i.legalModes then some (encode i :: ops.map Operand.value) else none

/-- R110, R112: the cells of a statement. -/
def Stmt.assemble : Stmt → Option (List Word)
  | .add a b d => assembleInstr (.add a.mode b.mode d.mode) [a, b, d]
  | .mul a b d => assembleInstr (.mul a.mode b.mode d.mode) [a, b, d]
  | .inp d => assembleInstr (.inp d.mode) [d]
  | .out a => assembleInstr (.out a.mode) [a]
  | .jt c t => assembleInstr (.jt c.mode t.mode) [c, t]
  | .jf c t => assembleInstr (.jf c.mode t.mode) [c, t]
  | .lt a b d => assembleInstr (.lt a.mode b.mode d.mode) [a, b, d]
  | .eq a b d => assembleInstr (.eq a.mode b.mode d.mode) [a, b, d]
  | .arb a => assembleInstr (.arb a.mode) [a]
  | .halt => assembleInstr .halt []
  | .word vs => some vs

/-- R110: the cells of a list of statements, one after another; refused when one of them is. -/
def assembleAll : List Stmt → Option (List Word)
  | [] => some []
  | st :: rest =>
    match st.assemble with
    | none => none
    | some cells => (assembleAll rest).map (cells ++ ·)

/-- The four cells of an instruction given as the number `w` of `nbits` bits, bit 0 the least
significant bit of the first cell; every bit above `nbits` is 0 (log 13). -/
def cellsOfTableWord (nbits w : Nat) : List Word :=
  let v := w % 2 ^ nbits
  [BitVec.ofNat 64 v, BitVec.ofNat 64 (v / 2 ^ 64), BitVec.ofNat 64 (v / 2 ^ 128),
    BitVec.ofNat 64 (v / 2 ^ 192)]

/-- The instruction at the head of a list of cells. -/
def decodeCells : List Word → Option Instr
  | [] => none
  | w :: _ =>
    match decode w with
    | .ok i => some i
    | .error _ => none

/-- The host's view of the decoder: the instruction read from the table word `w` of `nbits` bits. -/
def decodeTableWord (nbits w : Nat) : Option Instr := decodeCells (cellsOfTableWord nbits w)

end Sys2Proof
end

