-- ==== Sys2Proof/Machine/Alu.lean ====
section
/-! DEFINITION. The signed-integer ALU's sums and products (41_arithmetic.md R142, R143): the exact
integer result, then `wrap64`. -/

namespace Sys2Proof.Machine

/-- R143: `ALU_ADD`. -/
def aluAdd (a b : Word) : Word := wrap64 (a.toInt + b.toInt)

/-- R143: `ALU_MUL`. -/
def aluMul (a b : Word) : Word := wrap64 (a.toInt * b.toInt)

/-- R143: `ALU_RB`. -/
def aluRb (rb a : Word) : Word := wrap64 (rb.toInt + a.toInt)

end Sys2Proof.Machine
end

