-- ==== Sys2Proof/Machine/Operands.lean ====
section
/-! DEFINITION. The addressing-mode multiplexer (30_encoding.md R90 to R94): every operand form. -/

namespace Sys2Proof.Machine

/-- R81, R91: the raw argument at offset `k`, the whole cell `mem[pc + k]`. -/
def rawArg (s : State) (k : Nat) : Except FatalError Word := memRead s (s.pc.toInt + k)

/-- R92: `ReadOperand(k)`, the value of a read argument. Addresses are exact integer sums. -/
def readOperand (s : State) (k : Nat) : Mode → Except FatalError Word
  | .position =>
    match rawArg s k with
    | .ok raw => memRead s raw.toInt
    | .error e => .error e
  | .immediate => rawArg s k
  | .relative =>
    match rawArg s k with
    | .ok raw => memRead s (s.rb.toInt + raw.toInt)
    | .error e => .error e
  | .unassigned d => .error (.unsupportedAddressingMode d)

/-- R93: the bounds check of a destination address. -/
def checkAddress (s : State) (a : Int) : Except FatalError Nat :=
  if s.inRange a then .ok a.toNat else .error .outOfRange

/-- R93: `WriteAddress(k)`, the cell index of a destination. -/
def writeAddress (s : State) (k : Nat) : Mode → Except FatalError Nat
  | .position =>
    match rawArg s k with
    | .ok raw => checkAddress s raw.toInt
    | .error e => .error e
  | .immediate => .error (.unsupportedAddressingMode 1)
  | .relative =>
    match rawArg s k with
    | .ok raw => checkAddress s (s.rb.toInt + raw.toInt)
    | .error e => .error e
  | .unassigned d => .error (.unsupportedAddressingMode d)

/-- R124, R140: the shape shared by ADD, MUL, LT and EQ: both operands, then the destination, then
the one write, then `pc <- pc + 4`. -/
def storeBinary (f : Word → Word → Word) (m1 m2 m3 : Mode) (s : State) : Result :=
  complete s (do
    let a ← readOperand s 1 m1
    let b ← readOperand s 2 m2
    let d ← writeAddress s 3 m3
    return (memWrite s d (f a b)).advance 4)

/-- R123, R170: the shape shared by JT and JF: both operands are resolved before the test, the
target too when the jump is not taken. -/
def jumpIf (taken : Word → Bool) (m1 m2 : Mode) (s : State) : Result :=
  complete s (do
    let c ← readOperand s 1 m1
    let t ← readOperand s 2 m2
    return if taken c then s.jump t else s.advance 3)

end Sys2Proof.Machine
end

