-- ==== Sys2Proof/Machine/Arithmetic.lean ====
section
/-! DEFINITION. ADD and MUL (41_arithmetic.md). -/

namespace Sys2Proof.Machine

/-- R140: `ADD`, `dst <- wrap64(a + b)`. -/
def execAdd (m1 m2 m3 : Mode) (s : State) : Result := storeBinary aluAdd m1 m2 m3 s

/-- R141: `MUL`, `dst <- wrap64(a * b)`. -/
def execMul (m1 m2 m3 : Mode) (s : State) : Result := storeBinary aluMul m1 m2 m3 s

end Sys2Proof.Machine
end

