-- ==== Sys2Proof/Machine/BaseHalt.lean ====
section
/-! DEFINITION. ARB and HALT (45_base_and_halt.md). -/

namespace Sys2Proof.Machine

/-- R190: `ARB`, `rb <- wrap64(rb + a)`; a relative operand is read with the old `rb`. -/
def execArb (m1 : Mode) (s : State) : Result :=
  complete s (do
    let a ← readOperand s 1 m1
    return (s.setBase (aluRb s.rb a)).advance 2)

/-- R192: `HALT`; it raises nothing of its own. How far the pc moves is open (D8, log 7). -/
def execHalt (s : State) : Result := complete s (.ok (s.advance Config.haltPcAdvance.val).halt)

end Sys2Proof.Machine
end

