-- ==== Sys2Proof/Machine/Compare.lean ====
section
/-! DEFINITION. LT and EQ (44_compare.md). -/

namespace Sys2Proof.Machine

/-- R180: `LT`, signed. -/
def execLt (m1 m2 m3 : Mode) (s : State) : Result := storeBinary aluLt m1 m2 m3 s

/-- R181: `EQ`. -/
def execEq (m1 m2 m3 : Mode) (s : State) : Result := storeBinary aluEq m1 m2 m3 s

end Sys2Proof.Machine
end

