-- ==== Sys2Proof/Machine/InputOutput.lean ====
section
/-! DEFINITION. IN and OUT (42_io.md). -/

namespace Sys2Proof.Machine

/-- R150: `IN`. The destination is resolved before the input is taken, so a bad destination consumes
no input and does not ask the producer. -/
def execIn (m1 : Mode) (s : State) : Result :=
  complete s (do
    let d ← writeAddress s 1 m1
    let (v, t) ← nextInput s
    return (memWrite t d v).advance 2)

/-- R160: `OUT`, which suspends the RUN with the pc already past it. -/
def execOut (m1 : Mode) (s : State) : Result :=
  complete s (do
    let a ← readOperand s 1 m1
    return ((s.emit a).advance 2).suspend)

end Sys2Proof.Machine
end

