-- ==== Sys2Proof/Machine/Jumps.lean ====
section
/-! DEFINITION. JT and JF (43_jumps.md). -/

namespace Sys2Proof.Machine

/-- R170: `JT`, `pc <- t` when the condition is not 0. -/
def execJt (m1 m2 : Mode) (s : State) : Result := jumpIf aluNz m1 m2 s

/-- R171: `JF`, `pc <- t` when the condition is 0. -/
def execJf (m1 m2 : Mode) (s : State) : Result := jumpIf (fun c => !aluNz c) m1 m2 s

end Sys2Proof.Machine
end

