-- ==== Sys2Proof/Machine/Pipeline.lean ====
section
/-! DEFINITION. The fetch-decode-execute pipeline: one step of a RUNNING core (40_execute_cycle.md). -/

namespace Sys2Proof.Machine

/-- R89, R122: the decode stage, `UnimplementedOpcode` for a word of no instruction. -/
def decodeStage (w : Word) : Except FatalError Instr :=
  match decode w with
  | .ok i => .ok i
  | .error (.unimplementedOpcode op) => .error (.unimplementedOpcode op)

/-- R124, R128: fetch, decode, then the instruction's own rule; a raise of the first two stages takes
its fault entry here. -/
def cycle (s : State) : Result :=
  match fetch s with
  | .error e => .next (s.enterFault e)
  | .ok w =>
    match decodeStage w with
    | .error e => .next (s.enterFault e)
    | .ok i => exec i s

end Sys2Proof.Machine
end

