-- ==== Sys2Proof/Machine/Step.lean ====
section
/-! DEFINITION. One step of the machine: the core moves while RUNNING (40_execute_cycle.md R120), the
host otherwise (46_run_control.md R210). -/

namespace Sys2Proof.Machine

/-- One step. While the core is RUNNING the host does not act (R203, R210). -/
def step (s : State) : Host.Outcome State Fault Refusal :=
  match s.runState with
  | .running => cycle s
  | .idle => hostStep s
  | .halted => hostStep s
  | .faulted => hostStep s

/-- `s` with a RUN in progress and the instruction given as a table word placed where the next fetch
reads (log 2, log 13). -/
def State.withFetchWord (s : State) (nbits w : Nat) : State :=
  s.placeCells (cellsOfTableWord nbits w)

end Sys2Proof.Machine
end

