-- ==== Sys2Proof/Machine/RunControl.lean ====
section
/-! DEFINITION. A whole RUN: the repetition of steps until the core is no longer RUNNING
(40_execute_cycle.md R129, 46_run_control.md R204, R205). -/

namespace Sys2Proof.Machine

/-- R129, D20: the state in which a RUN in progress returns to the host, within `fuel` steps; `none`
when it has not returned by then. -/
def runUntilReturn : Nat → State → Option State
  | 0, _ => none
  | fuel + 1, s =>
    match s.runState with
    | .running =>
      match step s with
      | .next t => runUntilReturn fuel t
      | .fault _ => none
      | .refused _ => none
    | _ => some s

end Sys2Proof.Machine
end

