-- ==== Sys2Proof/Safety.lean ====
section
/-! DEFINITION. What claims are stated in: the invariant of reachable states, how a RUN ends, and
what a good end is (10_state.md R27, R29, R30, R36; 46_run_control.md R205, R211). -/

namespace Sys2Proof.Machine

/-- R30, R230: the fault status a machine in run state `r` may hold: nothing unless FAULTED; then a
cause, with 0, a mode digit of 1 to 9, or a raw opcode of -99 to 98 that is no opcode of R87. -/
def faultStatusOk (r : RunState) (cause : FaultCause) (info : Word) : Prop :=
  match cause with
  | .none => r ≠ .faulted ∧ info = 0
  | .outOfRange => r = .faulted ∧ info = 0
  | .unsupportedAddressingMode => r = .faulted ∧ 1 ≤ info.toInt ∧ info.toInt ≤ 9
  | .unimplementedOpcode =>
    r = .faulted ∧ -99 ≤ info.toInt ∧ info.toInt ≤ 98 ∧ ¬ (1 ≤ info.toInt ∧ info.toInt ≤ 9)
  | .inputExhausted => r = .faulted ∧ info = 0

/-- The invariant of a machine made by CONSTRUCT. -/
structure State.Inv (s : State) : Prop where
  /-- Memory is in its canonical form. -/
  memWf : s.mem.wf
  /-- R50: only cells of `[0, MEM_LEN)` hold anything. -/
  memBound : ∀ c ∈ s.mem, c.1 < s.memLen
  /-- R8. -/
  lenBound : s.memLen ≤ Config.maxMemLen
  /-- R27. -/
  cursorBound : s.inCursor ≤ s.inQueue.length
  /-- R29: `halted = true` exactly when `runState = HALTED`. -/
  haltedIff : s.halted = true ↔ s.runState = .halted
  /-- R30. -/
  faultStatus : faultStatusOk s.runState s.faultCause s.faultInfo

/-- The cells stand in memory from index `a` on. -/
def CellsAt (s : State) (a : Int) (cells : List Word) : Prop :=
  ∀ k (h : k < cells.length), memRead s (a + k) = .ok cells[k]

/-- The instruction at the pc is `i`: the fetch reads a word that decodes to it. -/
def AtInstr (s : State) (i : Instr) : Prop := ∃ w, fetch s = .ok w ∧ decode w = .ok i

/-- R124, R237: with three arguments, two read and one destination, the first argument that raises
decides the fault, and nothing else happens (R232). -/
def RaisesInOrder (i : Instr) (m1 m2 m3 : Mode) (s : State) : Prop :=
  (∀ e, readOperand s 1 m1 = .error e → exec i s = .next (s.enterFault e)) ∧
  (∀ a e, readOperand s 1 m1 = .ok a → readOperand s 2 m2 = .error e →
    exec i s = .next (s.enterFault e)) ∧
  (∀ a b e, readOperand s 1 m1 = .ok a → readOperand s 2 m2 = .ok b →
    writeAddress s 3 m3 = .error e → exec i s = .next (s.enterFault e))

/-- R205, R211: the RUN in progress in `s` returns to the host in `t`. -/
def RunEnds (s t : State) : Prop := ∃ fuel, runUntilReturn fuel s = some t

/-- R18, R211: the RUN in progress in `s` never returns. -/
def Hangs (s : State) : Prop := s.runState = .running ∧ ∀ fuel, runUntilReturn fuel s = none

/-- R211: the good final results of a RUN; FAULT is never one. -/
def goodReturn : RunReturn → Bool
  | .output _ => true
  | .halted => true
  | .fault _ _ => false

/-- A safe run: from `s`, `n` steps meet no stop and end in a machine that is not FAULTED. -/
def SafeFor (n : Nat) (s : State) : Prop :=
  ∃ t, core.run n s = .next t ∧ t.runState ≠ .faulted

end Sys2Proof.Machine
end

