-- ==== Sys2Proof/Certificates/Slice0/Obligations.lean ====
section
/-! DEFINITION. The statements about this model, each from the rules of spec/ its docstring names. -/

open Sys2Proof Sys2Proof.Machine

/-! ### Words and the ALU -/

/-- R12: `wrap64` is the reduction into the signed 64-bit range. -/
def Obligations.WrapReducesIntoWord : Prop :=
  (∀ n : Int, (wrap64 n).toInt = (n + 2 ^ 63) % 2 ^ 64 - 2 ^ 63) ∧
  (∀ w : Word, -2 ^ 63 ≤ w.toInt ∧ w.toInt ≤ 2 ^ 63 - 1) ∧
  (∀ n : Int, -2 ^ 63 ≤ n → n ≤ 2 ^ 63 - 1 → (wrap64 n).toInt = n)

/-- R11, R13: the remainder used for decoding has the sign of the dividend, and equals the
non-negative one on a non-negative dividend; so do the decimal digits. -/
def Obligations.DecodingDivisionTruncates : Prop :=
  (∀ a b : Int, 0 < b → a = b * tdiv a b + trem a b ∧ (trem a b).natAbs < b.natAbs ∧
    (0 ≤ a → 0 ≤ trem a b ∧ tdiv a b = a / b ∧ trem a b = a % b) ∧ (a ≤ 0 → trem a b ≤ 0)) ∧
  (∀ (w : Word) (k : Nat), dig w k = trem (tdiv w.toInt (10 ^ k)) 10)

/-- R143: the six ALU functions, as wrapped exact results or truth values. -/
def Obligations.AluFunctionsAsTabulated : Prop :=
  ∀ a b : Word,
    (aluAdd a b).toInt = (a.toInt + b.toInt + 2 ^ 63) % 2 ^ 64 - 2 ^ 63 ∧
    (aluMul a b).toInt = (a.toInt * b.toInt + 2 ^ 63) % 2 ^ 64 - 2 ^ 63 ∧
    (aluRb a b).toInt = (a.toInt + b.toInt + 2 ^ 63) % 2 ^ 64 - 2 ^ 63 ∧
    (aluLt a b).toInt = (if a.toInt < b.toInt then 1 else 0) ∧
    (aluEq a b).toInt = (if a.toInt = b.toInt then 1 else 0) ∧
    (aluNz a = true ↔ a.toInt ≠ 0)

/-! ### Encoding -/

/-- Decode and encode agree on every instruction a word can hold, with every mode digit of 0 to 9 in
every argument (30_encoding.md R83, R89, R96). -/
def Obligations.DecodeEncodeAgree : Prop :=
  ∀ i : Instr, i.wellFormed = true → decode (encode i) = .ok i

/-- R96: every non-negative word with an opcode of the map decodes to the instruction whose canonical
word has the same opcode and used mode digits, and zeros everywhere above; and the assembler emits
canonical words. -/
def Obligations.CanonicalWordOfEveryInstruction : Prop :=
  (∀ (i : Instr) (ops : List Operand) (cells : List Word), assembleInstr i ops = some cells →
    cells.head? = some (encode i)) ∧
  ∀ w : Word, 0 ≤ w.toInt → (1 ≤ opcodeField w ∧ opcodeField w ≤ 9 ∨ opcodeField w = 99) →
    ∃ i, decode w = .ok i ∧ decode (encode i) = .ok i ∧ opcodeField (encode i) = opcodeField w ∧
      (∀ k, 1 ≤ k → k < i.width → dig (encode i) (k + 1) = dig w (k + 1)) ∧
      (∀ k, i.width ≤ k → dig (encode i) (k + 1) = 0)

/-- R85: the mode digits of arguments the instruction does not have, and all higher digits, have no
effect: words that differ only there are the same instruction. -/
def Obligations.UnusedDigitsIgnored : Prop :=
  ∀ (w w' : Word) (i : Instr), decode w = .ok i → 0 ≤ w'.toInt → opcodeField w' = opcodeField w →
    (∀ k, 1 ≤ k → k < i.width → dig w' (k + 1) = dig w (k + 1)) → decode w' = .ok i

/-- R87: the opcode map: each instruction's opcode, width and roles, which words are instructions, the
digits their modes are read from (R83), and the raw opcode under which every other word is rejected. -/
def Obligations.OpcodeMapIsComplete : Prop :=
  (∀ m1 m2 m3 : Mode,
    (Instr.add m1 m2 m3).opcode = 1 ∧ (Instr.mul m1 m2 m3).opcode = 2 ∧ (Instr.inp m1).opcode = 3 ∧
    (Instr.out m1).opcode = 4 ∧ (Instr.jt m1 m2).opcode = 5 ∧ (Instr.jf m1 m2).opcode = 6 ∧
    (Instr.lt m1 m2 m3).opcode = 7 ∧ (Instr.eq m1 m2 m3).opcode = 8 ∧ (Instr.arb m1).opcode = 9 ∧
    Instr.halt.opcode = 99) ∧
  (∀ w i, decode w = .ok i → (i.opcode : Int) = opcodeField w ∧ i.width = i.args.length + 1 ∧
    i.args.map Prod.fst =
      (if i.opcode = 1 ∨ i.opcode = 2 ∨ i.opcode = 7 ∨ i.opcode = 8 then [.read, .read, .dst]
       else if i.opcode = 3 then [.dst]
       else if i.opcode = 4 ∨ i.opcode = 9 then [.read]
       else if i.opcode = 5 ∨ i.opcode = 6 then [.read, .read]
       else [])) ∧
  (∀ w i, decode w = .ok i → ∀ k r m, i.args[k]? = some (r, m) →
    m = modeField w (k + 1) ∧ (m.digit : Int) = dig w (k + 2)) ∧
  (∀ w op, decode w = .error (.unimplementedOpcode op) ↔
    op = opcodeField w ∧ (-99 ≤ op ∧ op ≤ 0 ∨ 10 ≤ op ∧ op ≤ 98))

/-- R84: a negative word has an opcode of -99 to 0 and is no instruction, so a step that fetches it
raises `UnimplementedOpcode` with that opcode. -/
def Obligations.NegativeWordsAreUnimplemented : Prop :=
  ∀ w : Word, w.toInt < 0 →
    -99 ≤ opcodeField w ∧ opcodeField w ≤ 0 ∧
    decode w = .error (.unimplementedOpcode (opcodeField w)) ∧
    ∀ s : State, s.runState = .running → fetch s = .ok w →
      step s = .next (s.enterFault (.unimplementedOpcode (opcodeField w)))

/-- Words written out digit by digit from R80 and R97, one for each family (a sanity statement). -/
def Obligations.FamilyWordsDecode : Prop :=
  decode (wrap64 21101) = .ok (.add .immediate .immediate .relative) ∧
  decode (wrap64 1002) = .ok (.mul .position .immediate .position) ∧
  decode (wrap64 203) = .ok (.inp .relative) ∧
  decode (wrap64 90104) = .ok (.out .immediate) ∧
  decode (wrap64 1105) = .ok (.jt .immediate .immediate) ∧
  decode (wrap64 1206) = .ok (.jf .relative .immediate) ∧
  decode (wrap64 1107) = .ok (.lt .immediate .immediate .position) ∧
  decode (wrap64 11108) = .ok (.eq .immediate .immediate .immediate) ∧
  decode (wrap64 309) = .ok (.arb (.unassigned 3)) ∧
  decode (wrap64 1000099) = .ok .halt ∧
  decode (wrap64 1242) = .error (.unimplementedOpcode 42) ∧
  decode (wrap64 (-99)) = .error (.unimplementedOpcode (-99))

/-- R112: a statement's cells are the canonical word with its operands' digits and then the operand
values in order; an immediate destination is refused. -/
def Obligations.AssemblerPlacesCanonicalCells : Prop :=
  ∀ a b d : Operand,
    (Stmt.add a b d).assemble = (if d.mode = .immediate then none else
      some [wrap64 (1 + 100 * a.mode.digit + 1000 * b.mode.digit + 10000 * d.mode.digit),
        a.value, b.value, d.value]) ∧
    (Stmt.mul a b d).assemble = (if d.mode = .immediate then none else
      some [wrap64 (2 + 100 * a.mode.digit + 1000 * b.mode.digit + 10000 * d.mode.digit),
        a.value, b.value, d.value]) ∧
    (Stmt.inp d).assemble = (if d.mode = .immediate then none else
      some [wrap64 (3 + 100 * d.mode.digit), d.value]) ∧
    (Stmt.out a).assemble = some [wrap64 (4 + 100 * a.mode.digit), a.value] ∧
    (Stmt.jt a b).assemble =
      some [wrap64 (5 + 100 * a.mode.digit + 1000 * b.mode.digit), a.value, b.value] ∧
    (Stmt.jf a b).assemble =
      some [wrap64 (6 + 100 * a.mode.digit + 1000 * b.mode.digit), a.value, b.value] ∧
    (Stmt.lt a b d).assemble = (if d.mode = .immediate then none else
      some [wrap64 (7 + 100 * a.mode.digit + 1000 * b.mode.digit + 10000 * d.mode.digit),
        a.value, b.value, d.value]) ∧
    (Stmt.eq a b d).assemble = (if d.mode = .immediate then none else
      some [wrap64 (8 + 100 * a.mode.digit + 1000 * b.mode.digit + 10000 * d.mode.digit),
        a.value, b.value, d.value]) ∧
    (Stmt.arb a).assemble = some [wrap64 (9 + 100 * a.mode.digit), a.value] ∧
    Stmt.halt.assemble = some [99] ∧
    (∀ vs, (Stmt.word vs).assemble = some vs)

/-- R113: the statement each pseudo-instruction expands to, and what it does when its cells stand at
the pc of a RUNNING core. -/
def Obligations.PseudoInstructionsHaveTheirEffect : Prop :=
  (∀ a d : Operand,
    (Pseudo.jmp a).expand = .jt (.immediate 1) a ∧
    (Pseudo.mov a d).expand = .add a (.immediate 0) d ∧
    (Pseudo.clr d).expand = .add (.immediate 0) (.immediate 0) d ∧
    Pseudo.nop.expand = .jt (.immediate 0) (.immediate 0) ∧
    (Pseudo.neg a d).expand = .mul a (.immediate (-1)) d) ∧
  ∀ (s : State) (x : Pseudo) (cells : List Word), s.runState = .running →
    x.expand.assemble = some cells → CellsAt s s.pc.toInt cells →
    match x with
    | .jmp t => ∀ v, readOperand s 2 t.mode = .ok v → step s = .next { s with pc := v }
    | .mov a d => ∀ v i, readOperand s 1 a.mode = .ok v → writeAddress s 3 d.mode = .ok i →
        step s = .next { s with mem := s.mem.write i v, pc := s.pc + 4 }
    | .clr d => ∀ i, writeAddress s 3 d.mode = .ok i →
        step s = .next { s with mem := s.mem.write i 0, pc := s.pc + 4 }
    | .nop => step s = .next { s with pc := s.pc + 3 }
    | .neg a d => ∀ v i, readOperand s 1 a.mode = .ok v → writeAddress s 3 d.mode = .ok i →
        step s = .next { s with mem := s.mem.write i (wrap64 (-v.toInt)), pc := s.pc + 4 }

/-! ### One step -/

/-- A step of a RUNNING core runs the instruction its word at the pc decodes to, and nothing besides:
no other register is moved around `exec` (40_execute_cycle.md R124, R128). -/
def Obligations.StepRunsDecodedInstruction : Prop :=
  ∀ (s : State) (i : Instr), s.runState = .running → s.inRange s.pc.toInt →
    decode (s.mem.read s.pc.toInt.toNat) = .ok i → step s = exec i s

/-- R121: a fetch outside memory raises `OutOfRange`. -/
def Obligations.FetchOutsideMemoryFaults : Prop :=
  ∀ s : State,
    (s.runState = .running → s.pc.toInt < 0 ∨ (s.memLen : Int) ≤ s.pc.toInt →
      step s = .next { s with faultCause := .outOfRange, faultInfo := 0, runState := .faulted }) ∧
    (0 ≤ s.pc.toInt → s.pc.toInt < s.memLen → fetch s = .ok (s.mem.read s.pc.toInt.toNat))

/-- R233: a word of no instruction raises `UnimplementedOpcode` with its raw opcode at the decode
stage, whatever its argument cells are. -/
def Obligations.UnimplementedOpcodeFaults : Prop :=
  ∀ s : State, s.runState = .running → s.inRange s.pc.toInt →
    let op := opcodeField (s.mem.read s.pc.toInt.toNat)
    (op ≤ 0 ∨ 10 ≤ op ∧ op ≤ 98) →
    step s = .next { s with faultCause := .unimplementedOpcode, faultInfo := wrap64 op,
                            runState := .faulted } ∧
    (wrap64 op).toInt = op

/-- R92: the value resolver: the digit of the word selects the mode, every address is an exact integer
sum, and a digit of 3 to 9 raises before any cell is read. -/
def Obligations.ReadOperandByMode : Prop :=
  ∀ (s : State) (w : Word) (k : Nat), 0 ≤ w.toInt →
    let m := dig w (k + 1)
    let argAt := s.pc.toInt + k
    let raw := (s.mem.read argAt.toNat).toInt
    (m = 0 → readOperand s k (modeField w k) =
      (if s.inRange argAt ∧ s.inRange raw then .ok (s.mem.read raw.toNat)
       else .error .outOfRange)) ∧
    (m = 1 → readOperand s k (modeField w k) =
      (if s.inRange argAt then .ok (s.mem.read argAt.toNat) else .error .outOfRange)) ∧
    (m = 2 → readOperand s k (modeField w k) =
      (if s.inRange argAt ∧ s.inRange (s.rb.toInt + raw)
       then .ok (s.mem.read (s.rb.toInt + raw).toNat) else .error .outOfRange)) ∧
    (3 ≤ m → readOperand s k (modeField w k) = .error (.unsupportedAddressingMode m.toNat)) ∧
    0 ≤ m ∧ m ≤ 9

/-- R93: the address resolver: as R92 for the digits 0 and 2, checked when it is resolved; 1 and 3 to
9 raise. -/
def Obligations.WriteAddressByMode : Prop :=
  ∀ (s : State) (w : Word) (k : Nat), 0 ≤ w.toInt →
    let m := dig w (k + 1)
    let argAt := s.pc.toInt + k
    let raw := (s.mem.read argAt.toNat).toInt
    (m = 0 → writeAddress s k (modeField w k) =
      (if s.inRange argAt ∧ s.inRange raw then .ok raw.toNat else .error .outOfRange)) ∧
    (m = 2 → writeAddress s k (modeField w k) =
      (if s.inRange argAt ∧ s.inRange (s.rb.toInt + raw) then .ok (s.rb.toInt + raw).toNat
       else .error .outOfRange)) ∧
    (m = 1 ∨ 3 ≤ m →
      writeAddress s k (modeField w k) = .error (.unsupportedAddressingMode m.toNat)) ∧
    0 ≤ m ∧ m ≤ 9

/-- R94: a read argument accepts the digits 0, 1 and 2, a destination 0 and 2; every other digit in
its role raises `UnsupportedAddressingMode` with that digit, and no legal one does. -/
def Obligations.IllegalModeDigitsRaise : Prop :=
  ∀ (s : State) (k : Nat) (m : Mode), m.wellFormed = true →
    (∀ d, readOperand s k m = .error (.unsupportedAddressingMode d) ↔
      d = m.digit ∧ d ≠ 0 ∧ d ≠ 1 ∧ d ≠ 2) ∧
    (∀ d, writeAddress s k m = .error (.unsupportedAddressingMode d) ↔
      d = m.digit ∧ d ≠ 0 ∧ d ≠ 2)

/-! ### The instructions: each completes where its arguments resolve, and raises where one does not -/

/-- R140. -/
def Obligations.AddStoresWrappedSum : Prop :=
  ∀ (m1 m2 m3 : Mode) (s : State),
    (∀ a b d, readOperand s 1 m1 = .ok a → readOperand s 2 m2 = .ok b →
      writeAddress s 3 m3 = .ok d →
      exec (.add m1 m2 m3) s =
        .next { s with mem := s.mem.write d (wrap64 (a.toInt + b.toInt)), pc := s.pc + 4 }) ∧
    RaisesInOrder (.add m1 m2 m3) m1 m2 m3 s ∧
    encode (.add m1 m2 m3) = wrap64 (1 + 100 * m1.digit + 1000 * m2.digit + 10000 * m3.digit)

/-- R141. -/
def Obligations.MulStoresWrappedProduct : Prop :=
  ∀ (m1 m2 m3 : Mode) (s : State),
    (∀ a b d, readOperand s 1 m1 = .ok a → readOperand s 2 m2 = .ok b →
      writeAddress s 3 m3 = .ok d →
      exec (.mul m1 m2 m3) s =
        .next { s with mem := s.mem.write d (wrap64 (a.toInt * b.toInt)), pc := s.pc + 4 }) ∧
    RaisesInOrder (.mul m1 m2 m3) m1 m2 m3 s ∧
    encode (.mul m1 m2 m3) = wrap64 (2 + 100 * m1.digit + 1000 * m2.digit + 10000 * m3.digit)

/-- R180: the comparison is signed and the result exactly 1 or 0. -/
def Obligations.LessThanStoresOneOrZero : Prop :=
  ∀ (m1 m2 m3 : Mode) (s : State),
    (∀ a b d, readOperand s 1 m1 = .ok a → readOperand s 2 m2 = .ok b →
      writeAddress s 3 m3 = .ok d →
      (a.toInt < b.toInt →
        exec (.lt m1 m2 m3) s = .next { s with mem := s.mem.write d 1, pc := s.pc + 4 }) ∧
      (b.toInt ≤ a.toInt →
        exec (.lt m1 m2 m3) s = .next { s with mem := s.mem.write d 0, pc := s.pc + 4 })) ∧
    RaisesInOrder (.lt m1 m2 m3) m1 m2 m3 s ∧
    encode (.lt m1 m2 m3) = wrap64 (7 + 100 * m1.digit + 1000 * m2.digit + 10000 * m3.digit)

/-- R181: the result depends on the two operand values alone and is exactly 1 or 0. -/
def Obligations.EqualsStoresOneOrZero : Prop :=
  ∀ (m1 m2 m3 : Mode) (s : State),
    (∀ a b d, readOperand s 1 m1 = .ok a → readOperand s 2 m2 = .ok b →
      writeAddress s 3 m3 = .ok d →
      (a.toInt = b.toInt →
        exec (.eq m1 m2 m3) s = .next { s with mem := s.mem.write d 1, pc := s.pc + 4 }) ∧
      (a.toInt ≠ b.toInt →
        exec (.eq m1 m2 m3) s = .next { s with mem := s.mem.write d 0, pc := s.pc + 4 })) ∧
    RaisesInOrder (.eq m1 m2 m3) m1 m2 m3 s ∧
    encode (.eq m1 m2 m3) = wrap64 (8 + 100 * m1.digit + 1000 * m2.digit + 10000 * m3.digit)

/-- R150, R152, R153, R236: the destination is resolved first; then the queued value at the cursor is
taken, else the producer's answer (any word: `Config.producerAnswer` has no value a proof can see),
else `InputExhausted` is raised and nothing is written. The last clause is about states in which the
cursor is not past the end of the queue, R27's invariant. -/
def Obligations.InputTakesNextValue : Prop :=
  ∀ (m1 : Mode) (s : State),
    (∀ d v, writeAddress s 1 m1 = .ok d → s.inQueue[s.inCursor]? = some v →
      exec (.inp m1) s = .next { s with
        mem := s.mem.write d v, inCursor := s.inCursor + 1, pc := s.pc + 2 }) ∧
    (∀ d, writeAddress s 1 m1 = .ok d → s.inQueue.length ≤ s.inCursor → s.producerPresent = true →
      exec (.inp m1) s = .next { s with
        mem := s.mem.write d (Config.producerAnswer s.producerDraws)
        inQueue := s.inQueue ++ [Config.producerAnswer s.producerDraws]
        inCursor := s.inCursor + 1
        producerDraws := s.producerDraws + 1
        pc := s.pc + 2 }) ∧
    (∀ d, writeAddress s 1 m1 = .ok d → s.inQueue.length ≤ s.inCursor → s.producerPresent = false →
      exec (.inp m1) s = .next { s with
        faultCause := .inputExhausted, faultInfo := 0, runState := .faulted }) ∧
    (∀ e, writeAddress s 1 m1 = .error e → exec (.inp m1) s = .next (s.enterFault e)) ∧
    (∀ u, s.inCursor ≤ s.inQueue.length → exec (.inp m1) s = .next u →
      u.inCursor = s.inCursor + 1 → ∃ d, writeAddress s 1 m1 = .ok d ∧
        u.inQueue[u.inCursor - 1]? = some (u.mem.read d)) ∧
    encode (.inp m1) = wrap64 (3 + 100 * m1.digit)

/-- R160: the output register takes the operand, the pc is past the instruction, and the RUN
returns. -/
def Obligations.OutputSuspends : Prop :=
  ∀ (m1 : Mode) (s : State),
    (∀ a, readOperand s 1 m1 = .ok a →
      exec (.out m1) s = .next { s with lastOut := some a, pc := s.pc + 2, runState := .idle }) ∧
    (∀ e, readOperand s 1 m1 = .error e → exec (.out m1) s = .next (s.enterFault e)) ∧
    encode (.out m1) = wrap64 (4 + 100 * m1.digit)

/-- R170: the target is resolved even when the jump is not taken, and is loaded unchecked. -/
def Obligations.JumpIfTrueTakesNonZero : Prop :=
  ∀ (m1 m2 : Mode) (s : State),
    (∀ c t, readOperand s 1 m1 = .ok c → readOperand s 2 m2 = .ok t →
      (c.toInt ≠ 0 → exec (.jt m1 m2) s = .next { s with pc := t }) ∧
      (c.toInt = 0 → exec (.jt m1 m2) s = .next { s with pc := s.pc + 3 })) ∧
    (∀ e, readOperand s 1 m1 = .error e → exec (.jt m1 m2) s = .next (s.enterFault e)) ∧
    (∀ c e, readOperand s 1 m1 = .ok c → readOperand s 2 m2 = .error e →
      exec (.jt m1 m2) s = .next (s.enterFault e)) ∧
    encode (.jt m1 m2) = wrap64 (5 + 100 * m1.digit + 1000 * m2.digit)

/-- R171. -/
def Obligations.JumpIfFalseTakesZero : Prop :=
  ∀ (m1 m2 : Mode) (s : State),
    (∀ c t, readOperand s 1 m1 = .ok c → readOperand s 2 m2 = .ok t →
      (c.toInt = 0 → exec (.jf m1 m2) s = .next { s with pc := t }) ∧
      (c.toInt ≠ 0 → exec (.jf m1 m2) s = .next { s with pc := s.pc + 3 })) ∧
    (∀ e, readOperand s 1 m1 = .error e → exec (.jf m1 m2) s = .next (s.enterFault e)) ∧
    (∀ c e, readOperand s 1 m1 = .ok c → readOperand s 2 m2 = .error e →
      exec (.jf m1 m2) s = .next (s.enterFault e)) ∧
    encode (.jf m1 m2) = wrap64 (6 + 100 * m1.digit + 1000 * m2.digit)

/-- R190: the base moves by the operand, with 64-bit wrap-around and no fault. -/
def Obligations.AdjustBaseAddsOperand : Prop :=
  ∀ (m1 : Mode) (s : State),
    (∀ a, readOperand s 1 m1 = .ok a →
      exec (.arb m1) s =
        .next { s with rb := wrap64 (s.rb.toInt + a.toInt), pc := s.pc + 2 }) ∧
    (∀ e, readOperand s 1 m1 = .error e → exec (.arb m1) s = .next (s.enterFault e)) ∧
    encode (.arb m1) = wrap64 (9 + 100 * m1.digit)

/-- R191: an ARB whose operand brings the base to 2000 completes with that base, and then every
instruction that stores through a relative destination with raw offset 0 completes by writing its
value to cell 2000 and leaves every other cell, cell 0 among them, as it was. -/
def Obligations.RelativeStoreUsesAdjustedBase : Prop :=
  ∀ (m1 : Mode) (s : State) (a : Word), readOperand s 1 m1 = .ok a →
    wrap64 (s.rb.toInt + a.toInt) = 2000 → 2000 < s.memLen →
    ∃ u, exec (.arb m1) s = .next u ∧ u = { s with rb := 2000, pc := s.pc + 2 } ∧
      (rawArg u 3 = .ok 0 → ∀ (n1 n2 : Mode) (x y : Word),
        readOperand u 1 n1 = .ok x → readOperand u 2 n2 = .ok y →
        ∀ (i : Instr) (v : Word),
          (i = .add n1 n2 .relative ∧ v = wrap64 (x.toInt + y.toInt) ∨
           i = .mul n1 n2 .relative ∧ v = wrap64 (x.toInt * y.toInt) ∨
           i = .lt n1 n2 .relative ∧ v = (if x.toInt < y.toInt then 1 else 0) ∨
           i = .eq n1 n2 .relative ∧ v = (if x.toInt = y.toInt then 1 else 0)) →
          ∃ t, exec i u = .next t ∧ t.mem.read 2000 = v ∧ t.mem.read 0 = u.mem.read 0 ∧
            (∀ c, c ≠ 2000 → t.mem.read c = u.mem.read c) ∧ t.pc = u.pc + 4) ∧
      (rawArg u 1 = .ok 0 → ∀ v : Word,
        (u.inQueue[u.inCursor]? = some v ∨
         u.inQueue.length ≤ u.inCursor ∧ u.producerPresent = true ∧
           v = Config.producerAnswer u.producerDraws) →
        ∃ t, exec (.inp .relative) u = .next t ∧ t.mem.read 2000 = v ∧
          t.mem.read 0 = u.mem.read 0 ∧
          (∀ c, c ≠ 2000 → t.mem.read c = u.mem.read c) ∧ t.pc = u.pc + 2)

/-- R192: HALT completes in every state, and for good: after any number of steps from there, whatever
the host does, only pushed values and the commands taken differ. Every non-negative word with opcode 99
is HALT. How far the pc moves is open, 0 or 1: `Config.haltPcAdvance` has no value a proof can see. -/
def Obligations.HaltStopsForGood : Prop :=
  (∀ s : State, exec .halt s = .next { s with
    halted := true, runState := .halted,
    pc := s.pc + BitVec.ofNat 64 Config.haltPcAdvance.val }) ∧
  (∀ (s u t : State) (n : Nat), exec .halt s = .next u → core.run n u = .next t →
    t.halted = true ∧ t.runState = .halted ∧
    t = { u with inQueue := t.inQueue, hostCommands := t.hostCommands }) ∧
  (Config.haltPcAdvance.val = 0 ∨ Config.haltPcAdvance.val = 1) ∧
  (∀ w : Word, decode w = .ok .halt ↔ 0 ≤ w.toInt ∧ trem w.toInt 100 = 99) ∧
  encode .halt = 99

/-! ### Frames -/

/-- What ADD, MUL, LT and EQ leave alone: all but memory and the pc when they complete, all but the
fault status when they raise; and in memory every cell but the destination (R34, R61). -/
def Obligations.StoringInstructionsFrame : Prop :=
  ∀ (m1 m2 m3 : Mode) (i : Instr) (s u : State),
    (i = .add m1 m2 m3 ∨ i = .mul m1 m2 m3 ∨ i = .lt m1 m2 m3 ∨ i = .eq m1 m2 m3) →
    exec i s = .next u →
    (u = { s with mem := u.mem, pc := u.pc } ∨
     u = { s with faultCause := u.faultCause, faultInfo := u.faultInfo, runState := .faulted }) ∧
    (∀ d, writeAddress s 3 m3 = .ok d → ∀ a, a ≠ d → u.mem.read a = s.mem.read a) ∧
    (∀ e, writeAddress s 3 m3 = .error e → ∀ a, u.mem.read a = s.mem.read a)

/-- What IN leaves alone (R34, R150): IN also moves the cursor and, when the producer answers, the
queue and the number of answers given. -/
def Obligations.InputFrame : Prop :=
  ∀ (m1 : Mode) (s u : State), exec (.inp m1) s = .next u →
    (u = { s with mem := u.mem, pc := u.pc, inQueue := u.inQueue, inCursor := u.inCursor,
                  producerDraws := u.producerDraws } ∨
     u = { s with faultCause := u.faultCause, faultInfo := u.faultInfo, runState := .faulted }) ∧
    (∀ d, writeAddress s 1 m1 = .ok d → ∀ a, a ≠ d → u.mem.read a = s.mem.read a) ∧
    (∀ e, writeAddress s 1 m1 = .error e → ∀ a, u.mem.read a = s.mem.read a)

/-- What OUT, JT, JF, ARB and HALT leave alone (R34): all of memory, and every register but the ones
the rule of the instruction names, or but the fault status when they raise. -/
def Obligations.RegisterInstructionsFrame : Prop :=
  ∀ (m1 m2 : Mode) (i : Instr) (s u : State),
    (i = .out m1 ∨ i = .jt m1 m2 ∨ i = .jf m1 m2 ∨ i = .arb m1 ∨ i = .halt) →
    exec i s = .next u →
    (∀ a, u.mem.read a = s.mem.read a) ∧
    ((i = .out m1 ∧ u = { s with lastOut := u.lastOut, pc := u.pc, runState := .idle }) ∨
     ((i = .jt m1 m2 ∨ i = .jf m1 m2) ∧ u = { s with pc := u.pc }) ∨
     (i = .arb m1 ∧ u = { s with rb := u.rb, pc := u.pc }) ∨
     (i = .halt ∧ u = { s with halted := true, pc := u.pc, runState := .halted }) ∨
     (i ≠ .halt ∧ u = { s with faultCause := u.faultCause, faultInfo := u.faultInfo,
                               runState := .faulted }))

/-! ### Rules about every instruction -/

/-- No instruction of this model stops or refuses, whatever the state (derived: R87, R230, R232 give
each an effect or a fault entry). -/
def Obligations.EveryInstructionAnswersNext : Prop :=
  ∀ (i : Instr) (s : State), ∃ u, exec i s = .next u ∧
    (u = s.enterFault .outOfRange ∨ (∃ d, u = s.enterFault (.unsupportedAddressingMode d)) ∨
     u = s.enterFault .inputExhausted ∨
     u.faultCause = s.faultCause ∧ u.faultInfo = s.faultInfo ∧
       (u.runState = s.runState ∨ u.runState = .idle ∨ u.runState = .halted))

/-- R125: how the pc moves when a step of a RUNNING core does not fault, whatever the instruction
wrote over its own cells. -/
def Obligations.PcMovesByWidthOrJump : Prop :=
  ∀ (i : Instr) (s u : State), s.runState = .running → exec i s = .next u →
    u.runState ≠ .faulted →
    match i with
    | .jt m1 m2 => ∃ c t, readOperand s 1 m1 = .ok c ∧ readOperand s 2 m2 = .ok t ∧
        u.pc = if c ≠ 0 then t else s.pc + 3
    | .jf m1 m2 => ∃ c t, readOperand s 1 m1 = .ok c ∧ readOperand s 2 m2 = .ok t ∧
        u.pc = if c = 0 then t else s.pc + 3
    | .halt => u.pc = s.pc + BitVec.ofNat 64 Config.haltPcAdvance.val
    | i => u.pc = s.pc + BitVec.ofNat 64 i.width

/-- R126: a step that raises leaves memory, the registers and the input queue exactly as they were. -/
def Obligations.FaultsArePrecise : Prop :=
  ∀ s u : State, s.runState = .running → step s = .next u → u.runState = .faulted →
    u.mem = s.mem ∧ u.pc = s.pc ∧ u.rb = s.rb ∧ u.lastOut = s.lastOut ∧ u.halted = s.halted ∧
    u.inQueue = s.inQueue ∧ u.inCursor = s.inCursor ∧ u.producerDraws = s.producerDraws

/-- R232: what fault entry records for each error (the codes and values of R230), that it records
nothing else, and what the RUN gives back. -/
def Obligations.FaultEntryRecordsCodes : Prop :=
  ∀ s : State,
    s.enterFault .outOfRange =
      { s with faultCause := .outOfRange, faultInfo := 0, runState := .faulted } ∧
    s.enterFault .inputExhausted =
      { s with faultCause := .inputExhausted, faultInfo := 0, runState := .faulted } ∧
    (∀ d, 1 ≤ d → d ≤ 9 →
      s.enterFault (.unsupportedAddressingMode d) =
        { s with faultCause := .unsupportedAddressingMode, faultInfo := wrap64 d,
                 runState := .faulted } ∧ (wrap64 d).toInt = d) ∧
    (∀ op, -99 ≤ op → op ≤ 98 →
      s.enterFault (.unimplementedOpcode op) =
        { s with faultCause := .unimplementedOpcode, faultInfo := wrap64 op,
                 runState := .faulted } ∧ (wrap64 op).toInt = op) ∧
    (∀ e, runReturn (s.enterFault e) = some (.fault e.cause e.info)) ∧
    FaultCause.none.code = 0 ∧ FaultCause.outOfRange.code = 1 ∧
    FaultCause.unsupportedAddressingMode.code = 2 ∧ FaultCause.unimplementedOpcode.code = 3 ∧
    FaultCause.inputExhausted.code = 4

/-- R231: which instructions raise which error, for a step of a RUNNING core that faults: only a word
of no instruction raises `UnimplementedOpcode`, only IN `InputExhausted`, a mode error comes from an
argument of the instruction whose digit is illegal for its role, and HALT raises nothing. -/
def Obligations.ErrorsComeFromTheirInstructions : Prop :=
  ∀ (s u : State), s.runState = .running → step s = .next u → u.runState = .faulted →
    match u.faultCause with
    | .none => False
    | .outOfRange => ¬ AtInstr s .halt
    | .unimplementedOpcode => ∀ i, ¬ AtInstr s i
    | .inputExhausted => ∃ m, AtInstr s (.inp m)
    | .unsupportedAddressingMode => ∃ i r m, AtInstr s i ∧ (r, m) ∈ i.args ∧
        m.legal r = false ∧ u.faultInfo.toInt = m.digit

/-- R34: the complete table of who writes what, over every step of the machine, host commands
included. -/
def Obligations.OnlyNamedWritersWrite : Prop :=
  ∀ s u : State, step s = .next u →
    (u.mem ≠ s.mem → s.runState = .running ∧ ∃ m1 m2 m3,
      AtInstr s (.add m1 m2 m3) ∨ AtInstr s (.mul m1 m2 m3) ∨ AtInstr s (.inp m1) ∨
      AtInstr s (.lt m1 m2 m3) ∨ AtInstr s (.eq m1 m2 m3)) ∧
    (u.pc ≠ s.pc → s.runState = .running ∧ ∃ i, AtInstr s i) ∧
    (u.rb ≠ s.rb → s.runState = .running ∧ ∃ m, AtInstr s (.arb m)) ∧
    (u.lastOut ≠ s.lastOut → s.runState = .running ∧ ∃ m, AtInstr s (.out m)) ∧
    (u.halted ≠ s.halted → s.runState = .running ∧ AtInstr s .halt) ∧
    (u.inCursor ≠ s.inCursor → s.runState = .running ∧ ∃ m, AtInstr s (.inp m)) ∧
    (u.inQueue ≠ s.inQueue →
      (s.runState = .running ∧ s.producerPresent = true ∧ ∃ m, AtInstr s (.inp m)) ∨
      (∃ v, s.hostCommands.head? = some (.push v) ∧ u.inQueue = s.inQueue ++ [v])) ∧
    (u.faultCause ≠ s.faultCause ∨ u.faultInfo ≠ s.faultInfo →
      s.runState = .running ∧ u.runState = .faulted) ∧
    (u.runState ≠ s.runState →
      (s.runState = .running ∧
        (u.runState = .faulted ∨ (u.runState = .idle ∧ ∃ m, AtInstr s (.out m)) ∨
         (u.runState = .halted ∧ AtInstr s .halt))) ∨
      (s.runState = .idle ∧ s.hostCommands.head? = some .run ∧ u.runState = .running))

/-! ### Memory -/

/-- R62: a read gives the value of the most recent write to the cell, and a write touches no other
cell; and equal memories are equal data: two memories in canonical form that read the same in every
cell are the same list (the latter the model's own, log 3). -/
def Obligations.MemoryReadsLastWrite : Prop :=
  (∀ (m : Memory) (a b : Nat) (v : Word),
    (m.write a v).read b = if b = a then v else m.read b) ∧
  (∀ m m' : Memory, m.wf → m'.wf → (∀ a, m.read a = m'.read a) → m = m')

/-- R51: the memory length, and whether a producer is registered, never change (R201). -/
def Obligations.ParametersNeverChange : Prop :=
  ∀ s u : State, step s = .next u →
    u.memLen = s.memLen ∧ u.producerPresent = s.producerPresent

/-- R65: a value stored where the pc now points is the word the next step fetches. -/
def Obligations.StoreIsSeenByNextFetch : Prop :=
  ∀ (m1 m2 m3 : Mode) (i : Instr) (s u : State) (d : Nat),
    (i = .add m1 m2 m3 ∨ i = .mul m1 m2 m3 ∨ i = .lt m1 m2 m3 ∨ i = .eq m1 m2 m3) →
    s.runState = .running → exec i s = .next u → u.runState = .running →
    writeAddress s 3 m3 = .ok d → u.pc.toInt = d →
    ∃ a b, readOperand s 1 m1 = .ok a ∧ readOperand s 2 m2 = .ok b ∧
      fetch u = .ok (match i with
        | .add _ _ _ => wrap64 (a.toInt + b.toInt)
        | .mul _ _ _ => wrap64 (a.toInt * b.toInt)
        | .lt _ _ _ => if a.toInt < b.toInt then 1 else 0
        | _ => if a.toInt = b.toInt then 1 else 0)

/-! ### Construction, reset and the invariant -/

/-- R260, R35: what CONSTRUCT sets, for an image and a memory length of at most `2^62` cells (R8); a
target size below the image is refused. -/
def Obligations.ConstructionSetsEveryField : Prop :=
  ∀ (image : List Word) (target : Option Nat) (present : Bool),
    (∀ n, target = some n → n < image.length →
      construct image target present = .refused .targetSizeTooSmall) ∧
    (image.length ≤ constructLen image target → constructLen image target ≤ 2 ^ 62 →
      ∃ s, construct image target present = .next s ∧
        s.memLen = (match target with | none => image.length | some n => n) ∧
        (∀ i (h : i < image.length), s.mem.read i = image[i]) ∧
        (∀ i, image.length ≤ i → s.mem.read i = 0) ∧
        s.pc = 0 ∧ s.rb = 0 ∧ s.halted = false ∧ s.lastOut = none ∧ s.outValid = false ∧
        s.runState = .idle ∧ s.faultCause.code = 0 ∧ s.faultInfo = 0 ∧
        s.inQueue = [] ∧ s.inCursor = 0 ∧ s.producerPresent = present)

/-- The invariant holds after every construction that is not refused (R8, R27, R29, R30, R50). -/
def Obligations.ConstructionMeetsInvariant : Prop :=
  ∀ (image : List Word) (target : Option Nat) (present : Bool) (s : State),
    construct image target present = .next s → s.Inv

/-- The invariant holds at reset. -/
def Obligations.ResetMeetsInvariant : Prop := State.reset.Inv

/-- Every step, of the core or of the host, keeps the invariant: canonical memory within its length,
the cursor within the queue (R27), the halted flag exactly in HALTED (R29), and a fault status of the
form R30 and R230 give. -/
def Obligations.StepKeepsInvariant : Prop :=
  ∀ s u : State, s.Inv → step s = .next u → u.Inv

/-! ### Run control and the host -/

/-- R203: PUSH appends in IDLE and HALTED and is refused in FAULTED; while RUNNING there is none: a
step takes no command. -/
def Obligations.PushAppends : Prop :=
  ∀ (s : State) (v : Word) (rest : List HostCommand), s.hostCommands = .push v :: rest →
    (s.runState = .idle ∨ s.runState = .halted →
      step s = .next { s with inQueue := s.inQueue ++ [v], hostCommands := rest }) ∧
    (s.runState = .faulted → step s = .refused .pushAfterFault) ∧
    (s.runState = .running → hostPush v s = .refused .hostWhileRunning ∧
      ∀ u, step s = .next u → u.hostCommands = s.hostCommands)

/-- R204, R207: RUN starts an IDLE core and is refused for a FAULTED one. -/
def Obligations.RunStartsIdleCore : Prop :=
  ∀ (s : State) (rest : List HostCommand), s.hostCommands = .run :: rest →
    (s.runState = .idle → step s = .next { s with runState := .running, hostCommands := rest }) ∧
    (s.runState = .faulted → step s = .refused .runAfterFault)

/-- R206: any number of RUNs after a halt changes nothing but that they have been given, and each
returns HALTED. -/
def Obligations.RunsAfterHaltChangeNothing : Prop :=
  ∀ (n : Nat) (s : State) (rest : List HostCommand), s.runState = .halted →
    s.hostCommands = List.replicate n .run ++ rest →
    core.run n s = .next { s with hostCommands := rest } ∧
    runReturn { s with hostCommands := rest } = some .halted

/-- R24, R29, R242: HALTED and FAULTED are never left; in HALTED only a PUSH changes anything, in
FAULTED nothing does. -/
def Obligations.HaltedAndFaultedNeverLeft : Prop :=
  ∀ s u : State, step s = .next u →
    (s.runState = .halted → ∃ pushed, u = { s with
      inQueue := s.inQueue ++ pushed, hostCommands := u.hostCommands }) ∧
    (s.runState = .faulted → u = { s with hostCommands := u.hostCommands }) ∧
    (s.halted = true → u.halted = true)

/-- R208: after an output the next RUN continues past the output instruction with all state kept. -/
def Obligations.OutputIsResumable : Prop :=
  ∀ (s u : State) (m : Mode) (a : Word) (rest : List HostCommand), s.runState = .running →
    AtInstr s (.out m) → readOperand s 1 m = .ok a → s.hostCommands = .run :: rest →
    step s = .next u →
    u.runState = .idle ∧ runReturn u = some (.output (some a)) ∧
    step u = .next { s with lastOut := some a, pc := s.pc + 2, hostCommands := rest }

/-- R209: INSPECT reads every status field by its index, every queue entry and every cell while the
core is not RUNNING, refuses every index out of range, and changes nothing. -/
def Obligations.InspectReadsEveryField : Prop :=
  ∀ s : State, s.runState ≠ .running →
    inspect (.status 0) s = .ok (some s.pc.toInt) ∧
    inspect (.status 1) s = .ok (some s.rb.toInt) ∧
    (s.outValid = false → inspect (.status 2) s = .ok none) ∧
    (∀ v, s.lastOut = some v → inspect (.status 2) s = .ok (some v.toInt)) ∧
    inspect (.status 3) s = .ok (some (if s.lastOut = none then 0 else 1)) ∧
    inspect (.status 4) s = .ok (some (if s.halted then 1 else 0)) ∧
    inspect (.status 5) s = .ok (some (match s.runState with
      | .idle => 0 | .running => 1 | .halted => 2 | .faulted => 3)) ∧
    inspect (.status 6) s = .ok (some s.faultCause.code) ∧
    inspect (.status 7) s = .ok (some s.faultInfo.toInt) ∧
    inspect (.status 8) s = .ok (some s.inQueue.length) ∧
    inspect (.status 9) s = .ok (some s.inCursor) ∧
    (∀ n, 10 ≤ n → inspect (.status n) s = .error .inspectOutOfRange) ∧
    (∀ i (h : i < s.inQueue.length), inspect (.queueEntry i) s = .ok (some s.inQueue[i].toInt)) ∧
    (∀ i, s.inQueue.length ≤ i → inspect (.queueEntry i) s = .error .inspectOutOfRange) ∧
    (∀ a : Int, 0 ≤ a → a < s.memLen →
      inspect (.cell a) s = .ok (some (s.mem.read a.toNat).toInt)) ∧
    (∀ a : Int, a < 0 ∨ (s.memLen : Int) ≤ a → inspect (.cell a) s = .error .inspectOutOfRange) ∧
    (∀ q rest, s.hostCommands = .inspect q :: rest →
      ((∃ v, inspect q s = .ok v) → step s = .next { s with hostCommands := rest }) ∧
      (∀ r, inspect q s = .error r → step s = .refused r))

/-- R26, R27: the queue only grows at its end, and the cursor only moves forward, by exactly one at a
consumed value. -/
def Obligations.QueueOnlyGrows : Prop :=
  ∀ s u : State, step s = .next u →
    (∃ more, u.inQueue = s.inQueue ++ more) ∧
    (u.inCursor = s.inCursor ∨ u.inCursor = s.inCursor + 1)

/-- R205: the last step of a RUN decides how it ends: OUT returns the output, HALT returns HALTED, a
raise returns the recorded fault, and after every other step the RUN goes on. -/
def Obligations.RunEndsByLastStep : Prop :=
  ∀ s u : State, s.runState = .running → step s = .next u →
    match u.runState with
    | .running => runReturn u = none ∧ (∀ m, ¬ AtInstr s (.out m)) ∧ ¬ AtInstr s .halt
    | .idle => ∃ m a, AtInstr s (.out m) ∧ readOperand s 1 m = .ok a ∧
        runReturn u = some (.output (some a))
    | .halted => AtInstr s .halt ∧ runReturn u = some .halted
    | .faulted => runReturn u = some (.fault u.faultCause u.faultInfo) ∧ u.faultCause ≠ .none

/-- R129: a RUN is the repetition of steps while the core is RUNNING: it has returned in `s` itself
once the core is not RUNNING, and a step of a RUNNING core does not change where it returns, so a step
that leaves RUNNING ends the RUN in the state it gives. More steps allowed do not change where it
returns, it returns in one state only, and never in RUNNING. -/
def Obligations.RunReturnsInOneState : Prop :=
  ∀ s : State,
    (s.runState ≠ .running → ∀ t, RunEnds s t ↔ t = s) ∧
    (∀ t t', RunEnds s t → RunEnds s t' → t = t') ∧
    (∀ t, RunEnds s t → t.runState ≠ .running) ∧
    (∀ n m t, n ≤ m → runUntilReturn n s = some t → runUntilReturn m s = some t) ∧
    (∀ u, s.runState = .running → step s = .next u → ∀ t, RunEnds u t ↔ RunEnds s t)

/-- A RUN either returns or hangs, and a RUNNING core is never stopped or refused by a step, so
the outcomes R18 lists are all of them. -/
def Obligations.RunReturnsOrHangs : Prop :=
  ∀ s : State, s.runState = .running →
    (∃ u, step s = .next u) ∧ (Hangs s ∨ ∃ t, RunEnds s t ∧ runReturn t ≠ none) ∧
    ¬ (Hangs s ∧ ∃ t, RunEnds s t)

/-- R170: a taken jump whose target is its own index loops for ever: a hang, not a fault. -/
def Obligations.JumpToItselfHangs : Prop :=
  ∀ (s : State) (m1 m2 : Mode) (c : Word), s.runState = .running → AtInstr s (.jt m1 m2) →
    readOperand s 1 m1 = .ok c → c.toInt ≠ 0 → readOperand s 2 m2 = .ok s.pc → Hangs s

/-- The host does not act while the core is RUNNING: the commands it has still to give have no part
in a step and are still pending after it (R60, R203, R238, D11). -/
def Obligations.PendingCommandsDoNotInterfere : Prop :=
  ∀ (s u : State) (cs : List HostCommand), s.runState = .running → step s = .next u →
    u.hostCommands = s.hostCommands ∧
    step { s with hostCommands := cs } = .next { u with hostCommands := cs }

/-- Consumed input values are never read again: two RUNNING machines that differ only in values
before the cursor take the same step, and differ only there after it (R26, R27, R152). -/
def Obligations.ConsumedInputDoesNotInterfere : Prop :=
  ∀ (s u : State) (p p' rest : List Word), s.runState = .running → s.inQueue = p ++ rest →
    s.inCursor = p.length → p'.length = p.length → step s = .next u →
    ∃ rest', u.inQueue = p ++ rest' ∧
      step { s with inQueue := p' ++ rest } = .next { u with inQueue := p' ++ rest' }

/-- A step of a RUNNING core depends on nothing but the core's own state (R21's ten fields), the
parameters of its instance (R8) and, where it is read, the producer's next answer (R128); and it
changes no parameter. What the model holds beside R21's fields is no state of the core. -/
def Obligations.CoreStepDependsOnCoreStateAlone : Prop :=
  ∀ s s' u : State, s.runState = .running → s'.toCoreState = s.toCoreState →
    s'.toParams = s.toParams →
    Config.producerAnswer s'.producerDraws = Config.producerAnswer s.producerDraws →
    step s = .next u →
    ∃ u', step s' = .next u' ∧ u'.toCoreState = u.toCoreState ∧ u'.toParams = s.toParams

/-- With no command pending nothing happens to an IDLE or HALTED machine (R248), and a FAULTED one
has stopped with the fault it recorded (the model's choice, log 8). -/
def Obligations.NothingHappensUnasked : Prop :=
  ∀ s : State, s.hostCommands = [] →
    (s.runState = .idle ∨ s.runState = .halted → step s = .next s) ∧
    (s.runState = .faulted → step s = .fault (.fatal s.faultCause s.faultInfo))

/-- A placed instruction word is the one the very next step runs, in a machine that keeps the
invariant (the model's own load interface, log 2, log 13). -/
def Obligations.PlacedWordRunsNext : Prop :=
  ∀ (s : State) (nbits w : Nat) (i : Instr), decodeTableWord nbits w = some i →
    step (s.withFetchWord nbits w) = exec i (s.withFetchWord nbits w) ∧
    (s.Inv → (s.withFetchWord nbits w).Inv)
end

