-- ==== Sys2Proof/Laws/Arith.lean ====
section
/-! SUPPORT. Laws of `wrap64` and of the decimal digits (00_scope.md R11 to R13). -/

namespace Sys2Proof

theorem wrap64_toInt (n : Int) : (wrap64 n).toInt = (n + 2 ^ 63) % 2 ^ 64 - 2 ^ 63 := by
  unfold wrap64
  rw [BitVec.toInt_ofInt, Int.bmod_def]
  split <;> omega

theorem wrap64_toInt_self (w : Word) : wrap64 w.toInt = w := BitVec.ofInt_toInt

theorem wrap64_toInt_of_bounds {n : Int} (h : -2 ^ 63 ≤ n ∧ n < 2 ^ 63) : (wrap64 n).toInt = n := by
  rw [wrap64_toInt]; omega

theorem word_bounds (w : Word) : -2 ^ 63 ≤ w.toInt ∧ w.toInt < 2 ^ 63 := by
  have h := BitVec.two_mul_toInt_lt (x := w)
  have h' := BitVec.le_two_mul_toInt (x := w)
  omega

theorem trem_eq_tmod (a b : Int) : trem a b = Int.tmod a b := by
  unfold trem tdiv
  have := Int.mul_tdiv_add_tmod a b
  omega

theorem trem_of_nonneg {a b : Int} (ha : 0 ≤ a) : trem a b = a % b := by
  rw [trem_eq_tmod, Int.tmod_eq_emod_of_nonneg ha]

theorem tdiv_of_nonneg {a b : Int} (ha : 0 ≤ a) : tdiv a b = a / b :=
  Int.tdiv_eq_ediv_of_nonneg ha

theorem dig_of_nonneg {w : Word} (h : 0 ≤ w.toInt) (k : Nat) : dig w k = w.toInt / 10 ^ k % 10 := by
  unfold dig
  rw [tdiv_of_nonneg h, trem_of_nonneg (Int.ediv_nonneg h (by positivity))]

theorem opcodeField_of_nonneg {w : Word} (h : 0 ≤ w.toInt) : opcodeField w = w.toInt % 100 :=
  trem_of_nonneg h

theorem opcodeField_nonpos_of_neg {w : Word} (h : w.toInt < 0) :
    -99 ≤ opcodeField w ∧ opcodeField w ≤ 0 := by
  have e : opcodeField w = -((-w.toInt) % 100) := by
    unfold opcodeField
    rw [trem_eq_tmod, ← Int.tmod_eq_emod_of_nonneg (by omega : 0 ≤ -w.toInt), Int.neg_tmod]
    omega
  omega

theorem opcodeField_bounds (w : Word) : -99 ≤ opcodeField w ∧ opcodeField w ≤ 99 := by
  by_cases h : 0 ≤ w.toInt
  · rw [opcodeField_of_nonneg h]; omega
  · have := opcodeField_nonpos_of_neg (w := w) (by omega); omega

theorem nonneg_of_opcodeField_pos {w : Word} (h : 0 < opcodeField w) : 0 ≤ w.toInt := by
  by_contra hc
  have := opcodeField_nonpos_of_neg (w := w) (by omega)
  omega

theorem Mode.digit_ofDigit {d : Int} (h : 0 ≤ d) : ((Mode.ofDigit d).digit : Int) = d := by
  unfold Mode.ofDigit
  split_ifs <;> simp_all [Mode.digit]

theorem Mode.ofDigit_digit {m : Mode} (h : m.wellFormed = true) : Mode.ofDigit m.digit = m := by
  cases m with
  | unassigned d =>
    simp only [Mode.wellFormed, decide_eq_true_eq] at h
    change Mode.ofDigit (d : Int) = _
    unfold Mode.ofDigit
    rw [if_neg (by omega), if_neg (by omega), if_neg (by omega), Int.toNat_natCast]
  | _ => rfl

theorem Mode.digit_le_nine {m : Mode} (h : m.wellFormed = true) : m.digit ≤ 9 := by
  cases m with
  | unassigned d =>
    simp only [Mode.wellFormed, decide_eq_true_eq] at h
    exact h.2
  | _ => decide

theorem Mode.wellFormed_ofDigit {d : Int} (h : 0 ≤ d ∧ d ≤ 9) : (Mode.ofDigit d).wellFormed = true := by
  unfold Mode.ofDigit
  split_ifs <;> simp_all [Mode.wellFormed]
  omega

theorem modeField_wellFormed {w : Word} (h : 0 ≤ w.toInt) (k : Nat) :
    (modeField w k).wellFormed = true := by
  apply Mode.wellFormed_ofDigit
  rw [dig_of_nonneg h]
  omega

end Sys2Proof
end

