-- ==== Sys2Proof/Laws/Encode.lean ====
section
/-! SUPPORT. The decoder and the encoder seen field by field: what fixes a decoded instruction, and
the digits of a canonical word (30_encoding.md R80, R89, R96). -/

namespace Sys2Proof

/-- The opcode and the mode fields an instruction uses fix what a word decodes to. -/
theorem decode_eq_of_fields {w : Word} {i : Instr} (ho : opcodeField w = i.opcode)
    (hm : ∀ k m, (i.args.map Prod.snd)[k]? = some m → modeField w (k + 1) = m) :
    decode w = .ok i := by
  have m0 := hm 0
  have m1 := hm 1
  have m2 := hm 2
  clear hm
  cases i <;> simp [Instr.args, Instr.opcode] at ho m0 m1 m2 <;> simp [decode, ho, m0, m1, m2]

/-- What a word that decodes to an instruction looks like, field by field. -/
theorem fields_of_decode {w : Word} {i : Instr} (h : decode w = .ok i) :
    opcodeField w = i.opcode ∧
    ∀ k m, (i.args.map Prod.snd)[k]? = some m → modeField w (k + 1) = m := by
  have key (x : Instr) (hx : decode w = .ok x) (ho : opcodeField w = x.opcode)
      (hm : ∀ k m, (x.args.map Prod.snd)[k]? = some m → modeField w (k + 1) = m) :
      opcodeField w = i.opcode ∧
      ∀ k m, (i.args.map Prod.snd)[k]? = some m → modeField w (k + 1) = m := by
    rw [hx] at h; cases h; exact ⟨ho, hm⟩
  have three (a b c : Mode) (ha : modeField w 1 = a) (hb : modeField w 2 = b)
      (hc : modeField w 3 = c) : ∀ k m, [a, b, c][k]? = some m → modeField w (k + 1) = m := by
    intro k m hk
    match k with
    | 0 => cases hk; exact ha
    | 1 => cases hk; exact hb
    | 2 => cases hk; exact hc
    | k + 3 => cases hk
  have two (a b : Mode) (ha : modeField w 1 = a) (hb : modeField w 2 = b) :
      ∀ k m, [a, b][k]? = some m → modeField w (k + 1) = m := by
    intro k m hk
    match k with
    | 0 => cases hk; exact ha
    | 1 => cases hk; exact hb
    | k + 2 => cases hk
  have one (a : Mode) (ha : modeField w 1 = a) :
      ∀ k m, [a][k]? = some m → modeField w (k + 1) = m := by
    intro k m hk
    match k with
    | 0 => cases hk; exact ha
    | k + 1 => cases hk
  have hd := h
  unfold decode at hd
  simp only at hd
  split at hd
  · exact key _ (h.trans hd.symm) ‹_› (three _ _ _ rfl rfl rfl)
  split at hd
  · exact key _ (h.trans hd.symm) ‹_› (three _ _ _ rfl rfl rfl)
  split at hd
  · exact key _ (h.trans hd.symm) ‹_› (one _ rfl)
  split at hd
  · exact key _ (h.trans hd.symm) ‹_› (one _ rfl)
  split at hd
  · exact key _ (h.trans hd.symm) ‹_› (two _ _ rfl rfl)
  split at hd
  · exact key _ (h.trans hd.symm) ‹_› (two _ _ rfl rfl)
  split at hd
  · exact key _ (h.trans hd.symm) ‹_› (three _ _ _ rfl rfl rfl)
  split at hd
  · exact key _ (h.trans hd.symm) ‹_› (three _ _ _ rfl rfl rfl)
  split at hd
  · exact key _ (h.trans hd.symm) ‹_› (one _ rfl)
  split at hd
  · exact key _ (h.trans hd.symm) ‹_› (fun k m hk => by cases hk)
  · cases hd

/-- R80: the value of a canonical word, five decimal digits at most. -/
theorem encode_toInt {i : Instr} (h : i.wellFormed = true) :
    (encode i).toInt = (i.opcode + modeDigits 100 i.args : Nat) ∧
    i.opcode + modeDigits 100 i.args < 100000 ∧ i.opcode < 100 := by
  have bound : i.opcode + modeDigits 100 i.args < 100000 ∧ i.opcode < 100 := by
    cases i <;>
      simp only [Instr.wellFormed, Instr.args, List.all_cons, List.all_nil, Bool.and_true,
        Bool.and_eq_true] at h <;>
      simp only [Instr.args, modeDigits, Instr.opcode]
    case add =>
      have := Mode.digit_le_nine h.1
      have := Mode.digit_le_nine h.2.1
      have := Mode.digit_le_nine h.2.2
      omega
    case mul =>
      have := Mode.digit_le_nine h.1
      have := Mode.digit_le_nine h.2.1
      have := Mode.digit_le_nine h.2.2
      omega
    case lt =>
      have := Mode.digit_le_nine h.1
      have := Mode.digit_le_nine h.2.1
      have := Mode.digit_le_nine h.2.2
      omega
    case eq =>
      have := Mode.digit_le_nine h.1
      have := Mode.digit_le_nine h.2.1
      have := Mode.digit_le_nine h.2.2
      omega
    case jt => 
      have := Mode.digit_le_nine h.1
      have := Mode.digit_le_nine h.2
      omega
    case jf => 
      have := Mode.digit_le_nine h.1
      have := Mode.digit_le_nine h.2
      omega
    case inp => have := Mode.digit_le_nine h; omega
    case out => have := Mode.digit_le_nine h; omega
    case arb => have := Mode.digit_le_nine h; omega
    case halt => decide
  refine ⟨?_, bound⟩
  unfold encode
  exact wrap64_toInt_of_bounds ⟨by omega, by omega⟩

theorem encode_nonneg {i : Instr} (h : i.wellFormed = true) : 0 ≤ (encode i).toInt := by
  have := encode_toInt h; omega

/-- R82: the opcode field of a canonical word. -/
theorem opcodeField_encode {i : Instr} (h : i.wellFormed = true) :
    opcodeField (encode i) = i.opcode := by
  obtain ⟨hv, -, ho⟩ := encode_toInt h
  have dvd (p : Nat) (hp : 100 ∣ p) (l : List (Role × Mode)) : 100 ∣ modeDigits p l := by
    induction l generalizing p with
    | nil => simp [modeDigits]
    | cons a l ih =>
      simp only [modeDigits]
      exact Nat.dvd_add (Dvd.dvd.mul_right hp _) (ih _ (Dvd.dvd.mul_left hp _))
  have := dvd 100 (dvd_refl _) i.args
  rw [opcodeField_of_nonneg (encode_nonneg h), hv]
  omega

/-- R83: the mode fields of a canonical word. -/
theorem modeField_encode {i : Instr} (h : i.wellFormed = true) (k : Nat) (m : Mode)
    (hk : (i.args.map Prod.snd)[k]? = some m) : modeField (encode i) (k + 1) = m := by
  have hm : m.wellFormed = true := by
    obtain ⟨a, ha, rfl⟩ := List.mem_map.mp (List.mem_of_getElem? hk)
    exact List.all_eq_true.mp h a ha
  obtain ⟨hv, -, -⟩ := encode_toInt h
  have dig_eq (j : Nat) (n : Nat) (hn : (i.opcode + modeDigits 100 i.args) / 10 ^ j % 10 = n) :
      dig (encode i) j = n := by
    rw [dig_of_nonneg (encode_nonneg h), hv]
    exact_mod_cast hn
  have by_digit (hd : (i.opcode + modeDigits 100 i.args) / 10 ^ (k + 2) % 10 = m.digit) :
      modeField (encode i) (k + 1) = m := by
    unfold modeField
    rw [dig_eq (k + 1 + 1) m.digit hd, Mode.ofDigit_digit hm]
  apply by_digit
  have bound (a : Role × Mode) (ha : a ∈ i.args) : a.2.digit ≤ 9 :=
    Mode.digit_le_nine (List.all_eq_true.mp h a ha)
  clear by_digit dig_eq hv hm h
  match k with
  | 0 =>
    cases i <;> simp [Instr.args] at hk bound <;> subst hk <;>
      simp [Instr.opcode, Instr.args, modeDigits] <;> omega
  | 1 =>
    cases i <;> simp [Instr.args] at hk bound <;> subst hk <;>
      simp [Instr.opcode, Instr.args, modeDigits] <;> omega
  | 2 =>
    cases i <;> simp [Instr.args] at hk bound <;> subst hk <;>
      simp [Instr.opcode, Instr.args, modeDigits] <;> omega
  | k + 3 => cases i <;> simp [Instr.args] at hk

end Sys2Proof
end

