-- ==== Sys2Proof/Laws/State.lean ====
section
/-! SUPPORT. One lemma per field per register write, each true by rfl: what a write sets and what it
leaves alone (10_state.md R34). -/

namespace Sys2Proof.Machine

/-! ### memWrite -/

@[simp] theorem memWrite_memLen (s : State) (a : Nat) (v : Word) :
    (memWrite s a v).memLen = s.memLen := rfl
@[simp] theorem memWrite_mem (s : State) (a : Nat) (v : Word) :
    (memWrite s a v).mem = s.mem.write a v := rfl
@[simp] theorem memWrite_pc (s : State) (a : Nat) (v : Word) :
    (memWrite s a v).pc = s.pc := rfl
@[simp] theorem memWrite_rb (s : State) (a : Nat) (v : Word) :
    (memWrite s a v).rb = s.rb := rfl
@[simp] theorem memWrite_lastOut (s : State) (a : Nat) (v : Word) :
    (memWrite s a v).lastOut = s.lastOut := rfl
@[simp] theorem memWrite_halted (s : State) (a : Nat) (v : Word) :
    (memWrite s a v).halted = s.halted := rfl
@[simp] theorem memWrite_runState (s : State) (a : Nat) (v : Word) :
    (memWrite s a v).runState = s.runState := rfl
@[simp] theorem memWrite_faultCause (s : State) (a : Nat) (v : Word) :
    (memWrite s a v).faultCause = s.faultCause := rfl
@[simp] theorem memWrite_faultInfo (s : State) (a : Nat) (v : Word) :
    (memWrite s a v).faultInfo = s.faultInfo := rfl
@[simp] theorem memWrite_inQueue (s : State) (a : Nat) (v : Word) :
    (memWrite s a v).inQueue = s.inQueue := rfl
@[simp] theorem memWrite_inCursor (s : State) (a : Nat) (v : Word) :
    (memWrite s a v).inCursor = s.inCursor := rfl
@[simp] theorem memWrite_producerPresent (s : State) (a : Nat) (v : Word) :
    (memWrite s a v).producerPresent = s.producerPresent := rfl
@[simp] theorem memWrite_producerDraws (s : State) (a : Nat) (v : Word) :
    (memWrite s a v).producerDraws = s.producerDraws := rfl
@[simp] theorem memWrite_hostCommands (s : State) (a : Nat) (v : Word) :
    (memWrite s a v).hostCommands = s.hostCommands := rfl

/-! ### State.advance -/

@[simp] theorem State.advance_memLen (s : State) (n : Nat) :
    (s.advance n).memLen = s.memLen := rfl
@[simp] theorem State.advance_mem (s : State) (n : Nat) :
    (s.advance n).mem = s.mem := rfl
@[simp] theorem State.advance_pc (s : State) (n : Nat) :
    (s.advance n).pc = s.pc + BitVec.ofNat 64 n := rfl
@[simp] theorem State.advance_rb (s : State) (n : Nat) :
    (s.advance n).rb = s.rb := rfl
@[simp] theorem State.advance_lastOut (s : State) (n : Nat) :
    (s.advance n).lastOut = s.lastOut := rfl
@[simp] theorem State.advance_halted (s : State) (n : Nat) :
    (s.advance n).halted = s.halted := rfl
@[simp] theorem State.advance_runState (s : State) (n : Nat) :
    (s.advance n).runState = s.runState := rfl
@[simp] theorem State.advance_faultCause (s : State) (n : Nat) :
    (s.advance n).faultCause = s.faultCause := rfl
@[simp] theorem State.advance_faultInfo (s : State) (n : Nat) :
    (s.advance n).faultInfo = s.faultInfo := rfl
@[simp] theorem State.advance_inQueue (s : State) (n : Nat) :
    (s.advance n).inQueue = s.inQueue := rfl
@[simp] theorem State.advance_inCursor (s : State) (n : Nat) :
    (s.advance n).inCursor = s.inCursor := rfl
@[simp] theorem State.advance_producerPresent (s : State) (n : Nat) :
    (s.advance n).producerPresent = s.producerPresent := rfl
@[simp] theorem State.advance_producerDraws (s : State) (n : Nat) :
    (s.advance n).producerDraws = s.producerDraws := rfl
@[simp] theorem State.advance_hostCommands (s : State) (n : Nat) :
    (s.advance n).hostCommands = s.hostCommands := rfl

/-! ### State.jump -/

@[simp] theorem State.jump_memLen (s : State) (t : Word) :
    (s.jump t).memLen = s.memLen := rfl
@[simp] theorem State.jump_mem (s : State) (t : Word) :
    (s.jump t).mem = s.mem := rfl
@[simp] theorem State.jump_pc (s : State) (t : Word) :
    (s.jump t).pc = t := rfl
@[simp] theorem State.jump_rb (s : State) (t : Word) :
    (s.jump t).rb = s.rb := rfl
@[simp] theorem State.jump_lastOut (s : State) (t : Word) :
    (s.jump t).lastOut = s.lastOut := rfl
@[simp] theorem State.jump_halted (s : State) (t : Word) :
    (s.jump t).halted = s.halted := rfl
@[simp] theorem State.jump_runState (s : State) (t : Word) :
    (s.jump t).runState = s.runState := rfl
@[simp] theorem State.jump_faultCause (s : State) (t : Word) :
    (s.jump t).faultCause = s.faultCause := rfl
@[simp] theorem State.jump_faultInfo (s : State) (t : Word) :
    (s.jump t).faultInfo = s.faultInfo := rfl
@[simp] theorem State.jump_inQueue (s : State) (t : Word) :
    (s.jump t).inQueue = s.inQueue := rfl
@[simp] theorem State.jump_inCursor (s : State) (t : Word) :
    (s.jump t).inCursor = s.inCursor := rfl
@[simp] theorem State.jump_producerPresent (s : State) (t : Word) :
    (s.jump t).producerPresent = s.producerPresent := rfl
@[simp] theorem State.jump_producerDraws (s : State) (t : Word) :
    (s.jump t).producerDraws = s.producerDraws := rfl
@[simp] theorem State.jump_hostCommands (s : State) (t : Word) :
    (s.jump t).hostCommands = s.hostCommands := rfl

/-! ### State.setBase -/

@[simp] theorem State.setBase_memLen (s : State) (v : Word) :
    (s.setBase v).memLen = s.memLen := rfl
@[simp] theorem State.setBase_mem (s : State) (v : Word) :
    (s.setBase v).mem = s.mem := rfl
@[simp] theorem State.setBase_pc (s : State) (v : Word) :
    (s.setBase v).pc = s.pc := rfl
@[simp] theorem State.setBase_rb (s : State) (v : Word) :
    (s.setBase v).rb = v := rfl
@[simp] theorem State.setBase_lastOut (s : State) (v : Word) :
    (s.setBase v).lastOut = s.lastOut := rfl
@[simp] theorem State.setBase_halted (s : State) (v : Word) :
    (s.setBase v).halted = s.halted := rfl
@[simp] theorem State.setBase_runState (s : State) (v : Word) :
    (s.setBase v).runState = s.runState := rfl
@[simp] theorem State.setBase_faultCause (s : State) (v : Word) :
    (s.setBase v).faultCause = s.faultCause := rfl
@[simp] theorem State.setBase_faultInfo (s : State) (v : Word) :
    (s.setBase v).faultInfo = s.faultInfo := rfl
@[simp] theorem State.setBase_inQueue (s : State) (v : Word) :
    (s.setBase v).inQueue = s.inQueue := rfl
@[simp] theorem State.setBase_inCursor (s : State) (v : Word) :
    (s.setBase v).inCursor = s.inCursor := rfl
@[simp] theorem State.setBase_producerPresent (s : State) (v : Word) :
    (s.setBase v).producerPresent = s.producerPresent := rfl
@[simp] theorem State.setBase_producerDraws (s : State) (v : Word) :
    (s.setBase v).producerDraws = s.producerDraws := rfl
@[simp] theorem State.setBase_hostCommands (s : State) (v : Word) :
    (s.setBase v).hostCommands = s.hostCommands := rfl

/-! ### State.emit -/

@[simp] theorem State.emit_memLen (s : State) (v : Word) :
    (s.emit v).memLen = s.memLen := rfl
@[simp] theorem State.emit_mem (s : State) (v : Word) :
    (s.emit v).mem = s.mem := rfl
@[simp] theorem State.emit_pc (s : State) (v : Word) :
    (s.emit v).pc = s.pc := rfl
@[simp] theorem State.emit_rb (s : State) (v : Word) :
    (s.emit v).rb = s.rb := rfl
@[simp] theorem State.emit_lastOut (s : State) (v : Word) :
    (s.emit v).lastOut = some v := rfl
@[simp] theorem State.emit_halted (s : State) (v : Word) :
    (s.emit v).halted = s.halted := rfl
@[simp] theorem State.emit_runState (s : State) (v : Word) :
    (s.emit v).runState = s.runState := rfl
@[simp] theorem State.emit_faultCause (s : State) (v : Word) :
    (s.emit v).faultCause = s.faultCause := rfl
@[simp] theorem State.emit_faultInfo (s : State) (v : Word) :
    (s.emit v).faultInfo = s.faultInfo := rfl
@[simp] theorem State.emit_inQueue (s : State) (v : Word) :
    (s.emit v).inQueue = s.inQueue := rfl
@[simp] theorem State.emit_inCursor (s : State) (v : Word) :
    (s.emit v).inCursor = s.inCursor := rfl
@[simp] theorem State.emit_producerPresent (s : State) (v : Word) :
    (s.emit v).producerPresent = s.producerPresent := rfl
@[simp] theorem State.emit_producerDraws (s : State) (v : Word) :
    (s.emit v).producerDraws = s.producerDraws := rfl
@[simp] theorem State.emit_hostCommands (s : State) (v : Word) :
    (s.emit v).hostCommands = s.hostCommands := rfl

/-! ### State.suspend -/

@[simp] theorem State.suspend_memLen (s : State) :
    (s.suspend).memLen = s.memLen := rfl
@[simp] theorem State.suspend_mem (s : State) :
    (s.suspend).mem = s.mem := rfl
@[simp] theorem State.suspend_pc (s : State) :
    (s.suspend).pc = s.pc := rfl
@[simp] theorem State.suspend_rb (s : State) :
    (s.suspend).rb = s.rb := rfl
@[simp] theorem State.suspend_lastOut (s : State) :
    (s.suspend).lastOut = s.lastOut := rfl
@[simp] theorem State.suspend_halted (s : State) :
    (s.suspend).halted = s.halted := rfl
@[simp] theorem State.suspend_runState (s : State) :
    (s.suspend).runState = .idle := rfl
@[simp] theorem State.suspend_faultCause (s : State) :
    (s.suspend).faultCause = s.faultCause := rfl
@[simp] theorem State.suspend_faultInfo (s : State) :
    (s.suspend).faultInfo = s.faultInfo := rfl
@[simp] theorem State.suspend_inQueue (s : State) :
    (s.suspend).inQueue = s.inQueue := rfl
@[simp] theorem State.suspend_inCursor (s : State) :
    (s.suspend).inCursor = s.inCursor := rfl
@[simp] theorem State.suspend_producerPresent (s : State) :
    (s.suspend).producerPresent = s.producerPresent := rfl
@[simp] theorem State.suspend_producerDraws (s : State) :
    (s.suspend).producerDraws = s.producerDraws := rfl
@[simp] theorem State.suspend_hostCommands (s : State) :
    (s.suspend).hostCommands = s.hostCommands := rfl

/-! ### State.halt -/

@[simp] theorem State.halt_memLen (s : State) :
    (s.halt).memLen = s.memLen := rfl
@[simp] theorem State.halt_mem (s : State) :
    (s.halt).mem = s.mem := rfl
@[simp] theorem State.halt_pc (s : State) :
    (s.halt).pc = s.pc := rfl
@[simp] theorem State.halt_rb (s : State) :
    (s.halt).rb = s.rb := rfl
@[simp] theorem State.halt_lastOut (s : State) :
    (s.halt).lastOut = s.lastOut := rfl
@[simp] theorem State.halt_halted (s : State) :
    (s.halt).halted = true := rfl
@[simp] theorem State.halt_runState (s : State) :
    (s.halt).runState = .halted := rfl
@[simp] theorem State.halt_faultCause (s : State) :
    (s.halt).faultCause = s.faultCause := rfl
@[simp] theorem State.halt_faultInfo (s : State) :
    (s.halt).faultInfo = s.faultInfo := rfl
@[simp] theorem State.halt_inQueue (s : State) :
    (s.halt).inQueue = s.inQueue := rfl
@[simp] theorem State.halt_inCursor (s : State) :
    (s.halt).inCursor = s.inCursor := rfl
@[simp] theorem State.halt_producerPresent (s : State) :
    (s.halt).producerPresent = s.producerPresent := rfl
@[simp] theorem State.halt_producerDraws (s : State) :
    (s.halt).producerDraws = s.producerDraws := rfl
@[simp] theorem State.halt_hostCommands (s : State) :
    (s.halt).hostCommands = s.hostCommands := rfl

/-! ### State.enterFault -/

@[simp] theorem State.enterFault_memLen (s : State) (e : FatalError) :
    (s.enterFault e).memLen = s.memLen := rfl
@[simp] theorem State.enterFault_mem (s : State) (e : FatalError) :
    (s.enterFault e).mem = s.mem := rfl
@[simp] theorem State.enterFault_pc (s : State) (e : FatalError) :
    (s.enterFault e).pc = s.pc := rfl
@[simp] theorem State.enterFault_rb (s : State) (e : FatalError) :
    (s.enterFault e).rb = s.rb := rfl
@[simp] theorem State.enterFault_lastOut (s : State) (e : FatalError) :
    (s.enterFault e).lastOut = s.lastOut := rfl
@[simp] theorem State.enterFault_halted (s : State) (e : FatalError) :
    (s.enterFault e).halted = s.halted := rfl
@[simp] theorem State.enterFault_runState (s : State) (e : FatalError) :
    (s.enterFault e).runState = .faulted := rfl
@[simp] theorem State.enterFault_faultCause (s : State) (e : FatalError) :
    (s.enterFault e).faultCause = e.cause := rfl
@[simp] theorem State.enterFault_faultInfo (s : State) (e : FatalError) :
    (s.enterFault e).faultInfo = e.info := rfl
@[simp] theorem State.enterFault_inQueue (s : State) (e : FatalError) :
    (s.enterFault e).inQueue = s.inQueue := rfl
@[simp] theorem State.enterFault_inCursor (s : State) (e : FatalError) :
    (s.enterFault e).inCursor = s.inCursor := rfl
@[simp] theorem State.enterFault_producerPresent (s : State) (e : FatalError) :
    (s.enterFault e).producerPresent = s.producerPresent := rfl
@[simp] theorem State.enterFault_producerDraws (s : State) (e : FatalError) :
    (s.enterFault e).producerDraws = s.producerDraws := rfl
@[simp] theorem State.enterFault_hostCommands (s : State) (e : FatalError) :
    (s.enterFault e).hostCommands = s.hostCommands := rfl

/-! ### Parameters and agents: no update of the core moves them -/

@[simp] theorem memWrite_toParams (s : State) (a : Nat) (v : Word) :
    (memWrite s a v).toParams = s.toParams := rfl
@[simp] theorem memWrite_toAgents (s : State) (a : Nat) (v : Word) :
    (memWrite s a v).toAgents = s.toAgents := rfl
@[simp] theorem State.advance_toParams (s : State) (n : Nat) :
    (s.advance n).toParams = s.toParams := rfl
@[simp] theorem State.advance_toAgents (s : State) (n : Nat) :
    (s.advance n).toAgents = s.toAgents := rfl
@[simp] theorem State.jump_toParams (s : State) (t : Word) :
    (s.jump t).toParams = s.toParams := rfl
@[simp] theorem State.jump_toAgents (s : State) (t : Word) :
    (s.jump t).toAgents = s.toAgents := rfl
@[simp] theorem State.setBase_toParams (s : State) (v : Word) :
    (s.setBase v).toParams = s.toParams := rfl
@[simp] theorem State.setBase_toAgents (s : State) (v : Word) :
    (s.setBase v).toAgents = s.toAgents := rfl
@[simp] theorem State.emit_toParams (s : State) (v : Word) :
    (s.emit v).toParams = s.toParams := rfl
@[simp] theorem State.emit_toAgents (s : State) (v : Word) :
    (s.emit v).toAgents = s.toAgents := rfl
@[simp] theorem State.suspend_toParams (s : State) :
    s.suspend.toParams = s.toParams := rfl
@[simp] theorem State.suspend_toAgents (s : State) :
    s.suspend.toAgents = s.toAgents := rfl
@[simp] theorem State.halt_toParams (s : State) :
    s.halt.toParams = s.toParams := rfl
@[simp] theorem State.halt_toAgents (s : State) :
    s.halt.toAgents = s.toAgents := rfl
@[simp] theorem State.enterFault_toParams (s : State) (e : FatalError) :
    (s.enterFault e).toParams = s.toParams := rfl
@[simp] theorem State.enterFault_toAgents (s : State) (e : FatalError) :
    (s.enterFault e).toAgents = s.toAgents := rfl

end Sys2Proof.Machine
end

