-- ==== Sys2Proof/Laws/Operands.lean ====
section
/-! SUPPORT. What each shared operation can do, said once: the arbiter, the addressing-mode
multiplexer, `NextInput`, and the two shared instruction shapes. -/

namespace Sys2Proof.Machine

theorem memRead_ok {s : State} {a : Int} {v : Word} :
    memRead s a = .ok v ↔ s.inRange a ∧ s.mem.read a.toNat = v := by
  unfold memRead
  split
  · rename_i h; exact ⟨fun e => ⟨h, by cases e; rfl⟩, fun e => by rw [e.2]⟩
  · rename_i h; exact ⟨fun e => (nomatch e), fun e => absurd e.1 h⟩

theorem memRead_error {s : State} {a : Int} {e : FatalError} :
    memRead s a = .error e ↔ ¬ s.inRange a ∧ e = .outOfRange := by
  unfold memRead
  split <;> simp_all [eq_comm]

theorem checkAddress_ok {s : State} {a : Int} {d : Nat} :
    checkAddress s a = .ok d ↔ s.inRange a ∧ (d : Int) = a := by
  unfold checkAddress
  split
  · rename_i h
    have := h.1
    exact ⟨fun e => ⟨h, by cases e; omega⟩, fun e => by rw [← e.2]; rfl⟩
  · rename_i h; exact ⟨fun e => (nomatch e), fun e => absurd e.1 h⟩

theorem checkAddress_error {s : State} {a : Int} {e : FatalError} :
    checkAddress s a = .error e ↔ ¬ s.inRange a ∧ e = .outOfRange := by
  unfold checkAddress
  split <;> simp_all [eq_comm]

/-- The errors of a read argument. -/
theorem readOperand_error {s : State} {k : Nat} {m : Mode} {e : FatalError}
    (h : readOperand s k m = .error e) :
    e = .outOfRange ∨ (m.legal .read = false ∧ e = .unsupportedAddressingMode m.digit) := by
  cases m with
  | unassigned d => right; simpa [readOperand, Mode.legal, Mode.digit, eq_comm] using h
  | immediate => exact .inl (memRead_error.mp h).2
  | position =>
    simp only [readOperand, rawArg] at h
    split at h
    · exact .inl (memRead_error.mp h).2
    · rename_i e' he
      cases h
      exact .inl (memRead_error.mp he).2
  | relative =>
    simp only [readOperand, rawArg] at h
    split at h
    · exact .inl (memRead_error.mp h).2
    · rename_i e' he
      cases h
      exact .inl (memRead_error.mp he).2

/-- The errors of a destination. -/
theorem writeAddress_error {s : State} {k : Nat} {m : Mode} {e : FatalError}
    (h : writeAddress s k m = .error e) :
    e = .outOfRange ∨ (m.legal .dst = false ∧ e = .unsupportedAddressingMode m.digit) := by
  cases m with
  | unassigned d => right; simpa [writeAddress, Mode.legal, Mode.digit, eq_comm] using h
  | immediate => right; simpa [writeAddress, Mode.legal, Mode.digit, eq_comm] using h
  | position =>
    simp only [writeAddress, rawArg] at h
    split at h
    · exact .inl (checkAddress_error.mp h).2
    · rename_i e' he
      cases h
      exact .inl (memRead_error.mp he).2
  | relative =>
    simp only [writeAddress, rawArg] at h
    split at h
    · exact .inl (checkAddress_error.mp h).2
    · rename_i e' he
      cases h
      exact .inl (memRead_error.mp he).2

/-- A resolved destination is a cell of memory. -/
theorem writeAddress_lt {s : State} {k : Nat} {m : Mode} {d : Nat}
    (h : writeAddress s k m = .ok d) : d < s.memLen := by
  cases m with
  | unassigned d => simp [writeAddress] at h
  | immediate => simp [writeAddress] at h
  | position =>
    simp only [writeAddress] at h
    split at h
    · have := checkAddress_ok.mp h
      simp only [State.inRange] at this; omega
    · cases h
  | relative =>
    simp only [writeAddress] at h
    split at h
    · have := checkAddress_ok.mp h
      simp only [State.inRange] at this; omega
    · cases h

/-- R152: what `NextInput` can do. -/
theorem nextInput_ok {s t : State} {v : Word} (h : nextInput s = .ok (v, t)) :
    (s.inQueue[s.inCursor]? = some v ∧ t = { s with inCursor := s.inCursor + 1 }) ∨
    (s.inQueue[s.inCursor]? = none ∧ s.producerPresent = true ∧
      v = Config.producerAnswer s.producerDraws ∧
      t = { s with inQueue := s.inQueue ++ [v], inCursor := s.inCursor + 1,
                   producerDraws := s.producerDraws + 1 }) := by
  unfold nextInput at h
  split at h
  · cases h; exact .inl ⟨‹_›, rfl⟩
  · split at h
    · cases h; exact .inr ⟨‹_›, ‹_›, rfl, rfl⟩
    · cases h

theorem nextInput_error {s : State} {e : FatalError} (h : nextInput s = .error e) :
    s.inQueue[s.inCursor]? = none ∧ s.producerPresent = false ∧ e = .inputExhausted := by
  unfold nextInput at h
  split at h
  · cases h
  · split at h
    · cases h
    · cases h; exact ⟨‹_›, by simp_all, rfl⟩

/-- R126: an instruction answers a next state whatever it does. -/
theorem complete_cases (s : State) (r : Except FatalError State) :
    (∃ t, r = .ok t ∧ complete s r = .next t) ∨
    (∃ e, r = .error e ∧ complete s r = .next (s.enterFault e)) := by
  cases r with
  | ok t => exact .inl ⟨t, rfl, rfl⟩
  | error e => exact .inr ⟨e, rfl, rfl⟩

theorem storeBinary_ok {f : Word → Word → Word} {m1 m2 m3 : Mode} {s : State} {a b : Word} {d : Nat}
    (h1 : readOperand s 1 m1 = .ok a) (h2 : readOperand s 2 m2 = .ok b)
    (h3 : writeAddress s 3 m3 = .ok d) :
    storeBinary f m1 m2 m3 s = .next ((memWrite s d (f a b)).advance 4) := by
  unfold storeBinary
  rw [h1, h2, h3]; rfl

/-- Everything the shared shape of ADD, MUL, LT and EQ can do. -/
theorem storeBinary_cases (f : Word → Word → Word) (m1 m2 m3 : Mode) (s : State) :
    (∃ a b d, readOperand s 1 m1 = .ok a ∧ readOperand s 2 m2 = .ok b ∧
      writeAddress s 3 m3 = .ok d ∧
      storeBinary f m1 m2 m3 s = .next ((memWrite s d (f a b)).advance 4)) ∨
    (∃ e, (readOperand s 1 m1 = .error e ∨ readOperand s 2 m2 = .error e ∨
        writeAddress s 3 m3 = .error e) ∧
      storeBinary f m1 m2 m3 s = .next (s.enterFault e)) := by
  cases h1 : readOperand s 1 m1 with
  | error e => exact .inr ⟨e, .inl rfl, by unfold storeBinary; rw [h1]; rfl⟩
  | ok a =>
    cases h2 : readOperand s 2 m2 with
    | error e => exact .inr ⟨e, .inr (.inl rfl), by unfold storeBinary; rw [h1, h2]; rfl⟩
    | ok b =>
      cases h3 : writeAddress s 3 m3 with
      | error e => exact .inr ⟨e, .inr (.inr rfl), by unfold storeBinary; rw [h1, h2, h3]; rfl⟩
      | ok d => exact .inl ⟨a, b, d, rfl, rfl, rfl, storeBinary_ok h1 h2 h3⟩

theorem jumpIf_ok {p : Word → Bool} {m1 m2 : Mode} {s : State} {c t : Word}
    (h1 : readOperand s 1 m1 = .ok c) (h2 : readOperand s 2 m2 = .ok t) :
    jumpIf p m1 m2 s = .next (if p c then s.jump t else s.advance 3) := by
  unfold jumpIf
  rw [h1, h2]; rfl

/-- Everything the shared shape of JT and JF can do. -/
theorem jumpIf_cases (p : Word → Bool) (m1 m2 : Mode) (s : State) :
    (∃ c t, readOperand s 1 m1 = .ok c ∧ readOperand s 2 m2 = .ok t ∧
      jumpIf p m1 m2 s = .next (if p c then s.jump t else s.advance 3)) ∨
    (∃ e, (readOperand s 1 m1 = .error e ∨ readOperand s 2 m2 = .error e) ∧
      jumpIf p m1 m2 s = .next (s.enterFault e)) := by
  cases h1 : readOperand s 1 m1 with
  | error e => exact .inr ⟨e, .inl rfl, by unfold jumpIf; rw [h1]; rfl⟩
  | ok c =>
    cases h2 : readOperand s 2 m2 with
    | error e => exact .inr ⟨e, .inr rfl, by unfold jumpIf; rw [h1, h2]; rfl⟩
    | ok t => exact .inl ⟨c, t, rfl, rfl, jumpIf_ok h1 h2⟩

end Sys2Proof.Machine
end

