-- ==== Sys2Proof/Laws/Exec.lean ====
section
/-! SUPPORT. What an instruction can do, said once: its own effect, or the fault entry of an error it
can raise. Claims about every instruction are derived from `exec_cases`. -/

namespace Sys2Proof.Machine

/-- The effect of each instruction when nothing raises, as a relation of the states before and
after. -/
def Effect : Instr → State → State → Prop
  | .add m1 m2 m3, s, u => ∃ a b d, readOperand s 1 m1 = .ok a ∧ readOperand s 2 m2 = .ok b ∧
      writeAddress s 3 m3 = .ok d ∧ u = (memWrite s d (aluAdd a b)).advance 4
  | .mul m1 m2 m3, s, u => ∃ a b d, readOperand s 1 m1 = .ok a ∧ readOperand s 2 m2 = .ok b ∧
      writeAddress s 3 m3 = .ok d ∧ u = (memWrite s d (aluMul a b)).advance 4
  | .inp m1, s, u => ∃ d v t, writeAddress s 1 m1 = .ok d ∧ nextInput s = .ok (v, t) ∧
      u = (memWrite t d v).advance 2
  | .out m1, s, u => ∃ a, readOperand s 1 m1 = .ok a ∧ u = ((s.emit a).advance 2).suspend
  | .jt m1 m2, s, u => ∃ c t, readOperand s 1 m1 = .ok c ∧ readOperand s 2 m2 = .ok t ∧
      u = if c ≠ 0 then s.jump t else s.advance 3
  | .jf m1 m2, s, u => ∃ c t, readOperand s 1 m1 = .ok c ∧ readOperand s 2 m2 = .ok t ∧
      u = if c = 0 then s.jump t else s.advance 3
  | .lt m1 m2 m3, s, u => ∃ a b d, readOperand s 1 m1 = .ok a ∧ readOperand s 2 m2 = .ok b ∧
      writeAddress s 3 m3 = .ok d ∧ u = (memWrite s d (aluLt a b)).advance 4
  | .eq m1 m2 m3, s, u => ∃ a b d, readOperand s 1 m1 = .ok a ∧ readOperand s 2 m2 = .ok b ∧
      writeAddress s 3 m3 = .ok d ∧ u = (memWrite s d (aluEq a b)).advance 4
  | .arb m1, s, u => ∃ a, readOperand s 1 m1 = .ok a ∧
      u = (s.setBase (aluRb s.rb a)).advance 2
  | .halt, s, u => u = (s.advance Config.haltPcAdvance.val).halt

/-- The errors an instruction can raise (60_exceptions.md R231). -/
def CanRaise (i : Instr) (e : FatalError) : Prop :=
  e = .outOfRange ∨
  (∃ r m, (r, m) ∈ i.args ∧ m.legal r = false ∧ e = .unsupportedAddressingMode m.digit) ∨
  (e = .inputExhausted ∧ ∃ m, i = .inp m)

theorem CanRaise.of_read {i : Instr} {s : State} {k : Nat} {m : Mode} {e : FatalError}
    (h : readOperand s k m = .error e) (hm : (Role.read, m) ∈ i.args) : CanRaise i e := by
  rcases readOperand_error h with h | ⟨h, he⟩
  · exact .inl h
  · exact .inr (.inl ⟨.read, m, hm, h, he⟩)

theorem CanRaise.of_write {i : Instr} {s : State} {k : Nat} {m : Mode} {e : FatalError}
    (h : writeAddress s k m = .error e) (hm : (Role.dst, m) ∈ i.args) : CanRaise i e := by
  rcases writeAddress_error h with h | ⟨h, he⟩
  · exact .inl h
  · exact .inr (.inl ⟨.dst, m, hm, h, he⟩)

/-- Every instruction answers a next state: its effect, or the fault entry of an error it can raise. -/
theorem exec_cases (i : Instr) (s : State) :
    (∃ u, Effect i s u ∧ exec i s = .next u) ∨
    (∃ e, CanRaise i e ∧ exec i s = .next (s.enterFault e)) := by
  have store (f : Word → Word → Word) (m1 m2 m3 : Mode)
      (h1 : (Role.read, m1) ∈ i.args) (h2 : (Role.read, m2) ∈ i.args) (h3 : (Role.dst, m3) ∈ i.args)
      (he : exec i s = storeBinary f m1 m2 m3 s)
      (heff : ∀ a b d, readOperand s 1 m1 = .ok a → readOperand s 2 m2 = .ok b →
        writeAddress s 3 m3 = .ok d → Effect i s ((memWrite s d (f a b)).advance 4)) :
      (∃ u, Effect i s u ∧ exec i s = .next u) ∨
      (∃ e, CanRaise i e ∧ exec i s = .next (s.enterFault e)) := by
    rw [he]
    rcases storeBinary_cases f m1 m2 m3 s with ⟨a, b, d, ha, hb, hd, h⟩ | ⟨e, hr, h⟩
    · exact .inl ⟨_, heff a b d ha hb hd, h⟩
    · refine .inr ⟨e, ?_, h⟩
      rcases hr with hr | hr | hr
      · exact .of_read hr h1
      · exact .of_read hr h2
      · exact .of_write hr h3
  have jump (p : Word → Bool) (m1 m2 : Mode)
      (h1 : (Role.read, m1) ∈ i.args) (h2 : (Role.read, m2) ∈ i.args)
      (he : exec i s = jumpIf p m1 m2 s)
      (heff : ∀ c t, readOperand s 1 m1 = .ok c → readOperand s 2 m2 = .ok t →
        Effect i s (if p c then s.jump t else s.advance 3)) :
      (∃ u, Effect i s u ∧ exec i s = .next u) ∨
      (∃ e, CanRaise i e ∧ exec i s = .next (s.enterFault e)) := by
    rw [he]
    rcases jumpIf_cases p m1 m2 s with ⟨c, t, hc, ht, h⟩ | ⟨e, hr, h⟩
    · exact .inl ⟨_, heff c t hc ht, h⟩
    · refine .inr ⟨e, ?_, h⟩
      rcases hr with hr | hr
      · exact .of_read hr h1
      · exact .of_read hr h2
  cases i with
  | add m1 m2 m3 =>
    exact store aluAdd m1 m2 m3 (by simp [Instr.args]) (by simp [Instr.args]) (by simp [Instr.args])
      rfl fun a b d ha hb hd => ⟨a, b, d, ha, hb, hd, rfl⟩
  | mul m1 m2 m3 =>
    exact store aluMul m1 m2 m3 (by simp [Instr.args]) (by simp [Instr.args]) (by simp [Instr.args])
      rfl fun a b d ha hb hd => ⟨a, b, d, ha, hb, hd, rfl⟩
  | lt m1 m2 m3 =>
    exact store aluLt m1 m2 m3 (by simp [Instr.args]) (by simp [Instr.args]) (by simp [Instr.args])
      rfl fun a b d ha hb hd => ⟨a, b, d, ha, hb, hd, rfl⟩
  | eq m1 m2 m3 =>
    exact store aluEq m1 m2 m3 (by simp [Instr.args]) (by simp [Instr.args]) (by simp [Instr.args])
      rfl fun a b d ha hb hd => ⟨a, b, d, ha, hb, hd, rfl⟩
  | jt m1 m2 =>
    refine jump aluNz m1 m2 (by simp [Instr.args]) (by simp [Instr.args]) rfl
      fun c t hc ht => ⟨c, t, hc, ht, ?_⟩
    simp [aluNz]
  | jf m1 m2 =>
    refine jump (fun c => !aluNz c) m1 m2 (by simp [Instr.args]) (by simp [Instr.args]) rfl
      fun c t hc ht => ⟨c, t, hc, ht, ?_⟩
    simp [aluNz]
  | inp m1 =>
    cases hd : writeAddress s 1 m1 with
    | error e =>
      exact .inr ⟨e, .of_write hd (by simp [Instr.args]),
        by simp only [exec, execIn, hd]; rfl⟩
    | ok d =>
      cases hn : nextInput s with
      | error e =>
        exact .inr ⟨e, .inr (.inr ⟨(nextInput_error hn).2.2, m1, rfl⟩),
          by simp only [exec, execIn, hd, hn]; rfl⟩
      | ok vt =>
        obtain ⟨v, t⟩ := vt
        exact .inl ⟨_, ⟨d, v, t, hd, hn, rfl⟩, by simp only [exec, execIn, hd, hn]; rfl⟩
  | out m1 =>
    cases ha : readOperand s 1 m1 with
    | error e =>
      exact .inr ⟨e, .of_read ha (by simp [Instr.args]), by simp only [exec, execOut, ha]; rfl⟩
    | ok a => exact .inl ⟨_, ⟨a, ha, rfl⟩, by simp only [exec, execOut, ha]; rfl⟩
  | arb m1 =>
    cases ha : readOperand s 1 m1 with
    | error e =>
      exact .inr ⟨e, .of_read ha (by simp [Instr.args]), by simp only [exec, execArb, ha]; rfl⟩
    | ok a => exact .inl ⟨_, ⟨a, ha, rfl⟩, by simp only [exec, execArb, ha]; rfl⟩
  | halt => exact .inl ⟨_, rfl, rfl⟩

/-- The inversion of one instruction, for proofs about every next state. -/
theorem exec_next {i : Instr} {s u : State} (h : exec i s = .next u) :
    Effect i s u ∨ ∃ e, CanRaise i e ∧ u = s.enterFault e := by
  rcases exec_cases i s with ⟨u', he, h'⟩ | ⟨e, he, h'⟩
  · rw [h'] at h; cases h; exact .inl he
  · rw [h'] at h; cases h; exact .inr ⟨e, he, rfl⟩

/-- `exec` neither stops nor refuses. -/
theorem exec_total (i : Instr) (s : State) : ∃ u, exec i s = .next u := by
  rcases exec_cases i s with ⟨u, -, h⟩ | ⟨e, -, h⟩
  · exact ⟨u, h⟩
  · exact ⟨_, h⟩

end Sys2Proof.Machine
end

