-- ==== Sys2Proof/Laws/Memory.lean ====
section
/-! SUPPORT. Laws of the memory list: what a read gives after each operation, and that each keeps the
canonical form (20_memory.md R50, R59, R62). -/

namespace Sys2Proof.Machine

@[simp] theorem Memory.read_nil (a : Nat) : Memory.read [] a = 0 := rfl

theorem Memory.read_cons (c : Nat × Word) (m : Memory) (a : Nat) :
    Memory.read (c :: m) a = if a = c.1 then c.2 else m.read a := by
  cases c; rfl

theorem Memory.read_eq_zero_of_not_mem {m : Memory} {a : Nat} (h : ∀ c ∈ m, c.1 ≠ a) :
    m.read a = 0 := by
  induction m with
  | nil => rfl
  | cons c m ih =>
    rw [Memory.read_cons, if_neg (fun e => h c (by simp) e.symm), ih fun d hd => h d (by simp [hd])]

theorem Memory.read_erase (m : Memory) (a b : Nat) :
    (m.erase a).read b = if b = a then 0 else m.read b := by
  induction m with
  | nil => simp [Memory.erase]
  | cons c m ih =>
    have ih' : Memory.read (List.filter (fun c => decide (c.1 ≠ a)) m) b
        = if b = a then 0 else Memory.read m b := ih
    unfold Memory.erase
    rw [List.filter_cons]
    by_cases hc : c.1 = a
    · rw [if_neg (by simp [hc]), ih', Memory.read_cons]
      split_ifs <;> simp_all
    · rw [if_pos (by simp [hc]), Memory.read_cons, Memory.read_cons, ih']
      split_ifs <;> simp_all

theorem Memory.read_insert {m : Memory} {a : Nat} (h : ∀ c ∈ m, c.1 ≠ a) (v : Word) (b : Nat) :
    (Memory.insert m a v).read b = if b = a then v else m.read b := by
  induction m with
  | nil => rfl
  | cons c m ih =>
    obtain ⟨i, u⟩ := c
    have hi : i ≠ a := h (i, u) (by simp)
    simp only [Memory.insert]
    split
    · rw [Memory.read_cons]
    · rw [Memory.read_cons, Memory.read_cons, ih fun d hd => h d (by simp [hd])]
      split_ifs <;> simp_all

theorem Memory.erase_ne {m : Memory} {a : Nat} : ∀ c ∈ m.erase a, c.1 ≠ a := by
  intro c hc
  simpa using (List.mem_filter.mp hc).2

/-- R62: a read gives the value last written to the cell, and a write leaves every other cell alone. -/
theorem Memory.read_write (m : Memory) (a : Nat) (v : Word) (b : Nat) :
    (m.write a v).read b = if b = a then v else m.read b := by
  unfold Memory.write
  split
  · rename_i hv; rw [Memory.read_erase, hv]
  · rw [Memory.read_insert Memory.erase_ne, Memory.read_erase]
    split_ifs <;> rfl

@[simp] theorem Memory.read_write_same (m : Memory) (a : Nat) (v : Word) :
    (m.write a v).read a = v := by simp [Memory.read_write]

theorem Memory.read_write_of_ne {a b : Nat} (h : b ≠ a) (m : Memory) (v : Word) :
    (m.write a v).read b = m.read b := by simp [Memory.read_write, h]

theorem Memory.mem_insert {m : Memory} {a : Nat} {v : Word} {c : Nat × Word}
    (h : c ∈ Memory.insert m a v) : c = (a, v) ∨ c ∈ m := by
  induction m with
  | nil => simpa [Memory.insert] using h
  | cons d m ih =>
    obtain ⟨i, u⟩ := d
    simp only [Memory.insert] at h
    split at h
    · simpa using h
    · rcases List.mem_cons.mp h with h | h
      · simp [h]
      · rcases ih h with h | h <;> simp [h]

theorem Memory.mem_write {m : Memory} {a : Nat} {v : Word} {c : Nat × Word}
    (h : c ∈ m.write a v) : (c = (a, v) ∧ v ≠ 0) ∨ c ∈ m := by
  unfold Memory.write at h
  split at h
  · exact .inr (List.mem_filter.mp h).1
  · rename_i hv
    rcases Memory.mem_insert h with h | h
    · exact .inl ⟨h, hv⟩
    · exact .inr (List.mem_filter.mp h).1

theorem Memory.insert_sorted {m : Memory} {a : Nat} {v : Word}
    (h : m.Pairwise fun c d => c.1 < d.1) (hn : ∀ c ∈ m, c.1 ≠ a) :
    (Memory.insert m a v).Pairwise fun c d => c.1 < d.1 := by
  induction m with
  | nil => simp [Memory.insert]
  | cons d m ih =>
    obtain ⟨i, u⟩ := d
    rw [List.pairwise_cons] at h
    simp only [Memory.insert]
    split
    · rename_i hai
      refine List.pairwise_cons.mpr ⟨?_, List.pairwise_cons.mpr h⟩
      intro c hc
      rcases List.mem_cons.mp hc with rfl | hc
      · exact hai
      · exact lt_trans hai (h.1 c hc)
    · rename_i hai
      have hia : i ≠ a := hn (i, u) (by simp)
      refine List.pairwise_cons.mpr ⟨?_, ih h.2 fun c hc => hn c (by simp [hc])⟩
      intro c hc
      rcases Memory.mem_insert hc with rfl | hc
      · change i < a; omega
      · exact h.1 c hc

/-- Every write keeps the canonical form. -/
theorem Memory.wf_write {m : Memory} (h : m.wf) (a : Nat) (v : Word) : (m.write a v).wf := by
  refine ⟨?_, ?_⟩
  · unfold Memory.write
    split
    · exact h.1.filter _
    · exact Memory.insert_sorted (h.1.filter _) Memory.erase_ne
  · intro c hc
    rcases Memory.mem_write hc with ⟨rfl, hv⟩ | hc
    · exact hv
    · exact h.2 c hc

theorem Memory.wf_writeAll {m : Memory} (h : m.wf) (a : Nat) (ws : List Word) :
    (m.writeAll a ws).wf := by
  induction ws generalizing m a with
  | nil => exact h
  | cons w ws ih => exact ih (Memory.wf_write h a w) (a + 1)

theorem Memory.mem_writeAll {m : Memory} {a : Nat} {ws : List Word} {c : Nat × Word}
    (h : c ∈ m.writeAll a ws) : (a ≤ c.1 ∧ c.1 < a + ws.length) ∨ c ∈ m := by
  induction ws generalizing m a with
  | nil => exact .inr h
  | cons w ws ih =>
    rcases ih h with h | h
    · left; simp only [List.length_cons]; omega
    · rcases Memory.mem_write h with ⟨rfl, -⟩ | h
      · left; simp
      · exact .inr h

theorem Memory.read_writeAll_below {m : Memory} {a : Nat} {ws : List Word} {b : Nat} (h : b < a) :
    (m.writeAll a ws).read b = m.read b := by
  induction ws generalizing m a with
  | nil => rfl
  | cons w ws ih =>
    exact (ih (m := m.write a w) (a := a + 1) (by omega)).trans (Memory.read_write_of_ne (by omega) m w)

theorem Memory.mem_ofImage {i : Nat} {ws : List Word} {c : Nat × Word}
    (h : c ∈ Memory.ofImage i ws) : i ≤ c.1 ∧ c.1 < i + ws.length ∧ c.2 ≠ 0 := by
  induction ws generalizing i with
  | nil => simp [Memory.ofImage] at h
  | cons w ws ih =>
    have step (h : c ∈ Memory.ofImage (i + 1) ws) :
        i ≤ c.1 ∧ c.1 < i + (w :: ws).length ∧ c.2 ≠ 0 := by
      have := ih h
      refine ⟨by omega, ?_, this.2.2⟩
      simp only [List.length_cons]; omega
    simp only [Memory.ofImage] at h
    split at h
    · exact step h
    · rename_i hw
      rcases List.mem_cons.mp h with rfl | h
      · exact ⟨le_refl _, by simp, hw⟩
      · exact step h

theorem Memory.wf_ofImage (i : Nat) (ws : List Word) : (Memory.ofImage i ws).wf := by
  refine ⟨?_, fun c hc => (Memory.mem_ofImage hc).2.2⟩
  induction ws generalizing i with
  | nil => simp [Memory.ofImage]
  | cons w ws ih =>
    simp only [Memory.ofImage]
    split
    · exact ih (i + 1)
    · refine List.pairwise_cons.mpr ⟨fun c hc => ?_, ih (i + 1)⟩
      have := Memory.mem_ofImage hc
      change i < c.1
      omega

theorem Memory.read_ofImage (i : Nat) (ws : List Word) (k : Nat) :
    (Memory.ofImage i ws).read (i + k) = ws.getD k 0 := by
  induction ws generalizing i k with
  | nil => simp [Memory.ofImage]
  | cons w ws ih =>
    have below : (Memory.ofImage (i + 1) ws).read i = 0 := by
      apply Memory.read_eq_zero_of_not_mem
      intro c hc
      have := Memory.mem_ofImage hc
      omega
    simp only [Memory.ofImage]
    cases k with
    | zero => split <;> simp_all [Memory.read_cons]
    | succ k =>
      have e : i + (k + 1) = (i + 1) + k := by omega
      split
      · rw [e, ih]; simp
      · rw [Memory.read_cons, if_neg (by change i + (k + 1) ≠ i; omega), e, ih]; simp

theorem Memory.read_head {c : Nat × Word} {m : Memory} : Memory.read (c :: m) c.1 = c.2 := by
  simp [Memory.read_cons]

theorem Memory.read_below {m : Memory} {a : Nat} (h : ∀ c ∈ m, a < c.1) : m.read a = 0 :=
  Memory.read_eq_zero_of_not_mem fun c hc e => by have := h c hc; omega

end Sys2Proof.Machine
end

