-- ==== Sys2Proof/Laws/PerInstr.lean ====
section
/-! SUPPORT. Statements about every instruction as syntax, one lemma a constructor. -/

namespace Sys2Proof.Laws.WidthCountsArgs

/-- R86, R87: an instruction's width is its word and its arguments, at most four cells. -/
def Statement (i : Instr) : Prop := i.width = i.args.length + 1 ∧ i.width ≤ 4

theorem add (m1 m2 m3 : Mode) : Statement (.add m1 m2 m3) := ⟨rfl, by simp [Instr.width]⟩
theorem mul (m1 m2 m3 : Mode) : Statement (.mul m1 m2 m3) := ⟨rfl, by simp [Instr.width]⟩
theorem inp (m1 : Mode) : Statement (.inp m1) := ⟨rfl, by simp [Instr.width]⟩
theorem out (m1 : Mode) : Statement (.out m1) := ⟨rfl, by simp [Instr.width]⟩
theorem jt (m1 m2 : Mode) : Statement (.jt m1 m2) := ⟨rfl, by simp [Instr.width]⟩
theorem jf (m1 m2 : Mode) : Statement (.jf m1 m2) := ⟨rfl, by simp [Instr.width]⟩
theorem lt (m1 m2 m3 : Mode) : Statement (.lt m1 m2 m3) := ⟨rfl, by simp [Instr.width]⟩
theorem eq (m1 m2 m3 : Mode) : Statement (.eq m1 m2 m3) := ⟨rfl, by simp [Instr.width]⟩
theorem arb (m1 : Mode) : Statement (.arb m1) := ⟨rfl, by simp [Instr.width]⟩
theorem halt : Statement .halt := ⟨rfl, by simp [Instr.width]⟩

end Sys2Proof.Laws.WidthCountsArgs
end

