-- ==== Sys2Proof/Laws/Step.lean ====
section
/-! SUPPORT. What the decoder and one step can do, said once. -/

namespace Sys2Proof.Machine

/-- R89: what a word that decodes to an instruction looks like. -/
theorem decode_ok {w : Word} {i : Instr} (h : decode w = .ok i) :
    0 ≤ w.toInt ∧ (i.opcode : Int) = opcodeField w ∧ i.wellFormed = true := by
  have pos (n : Int) (hn : opcodeField w = n) (hp : 0 < n) : 0 ≤ w.toInt :=
    nonneg_of_opcodeField_pos (by omega)
  unfold decode at h
  simp only at h
  split_ifs at h <;> cases h <;>
    refine ⟨pos _ ‹_› (by decide), by simp only [Instr.opcode]; omega, ?_⟩ <;>
    simp [Instr.wellFormed, Instr.args, modeField_wellFormed (pos _ ‹_› (by decide))]

/-- R87: a word that is no instruction, with the raw opcode it is rejected under. -/
theorem decode_error {w : Word} {op : Int} (h : decode w = .error (.unimplementedOpcode op)) :
    op = opcodeField w ∧ ¬ (1 ≤ op ∧ op ≤ 9) ∧ op ≠ 99 := by
  unfold decode at h
  simp only at h
  split_ifs at h
  cases h
  exact ⟨rfl, by omega, by omega⟩

/-- Everything one step of a RUNNING core can do. -/
theorem cycle_cases (s : State) :
    (∃ e, fetch s = .error e ∧ cycle s = .next (s.enterFault e)) ∨
    (∃ w op, fetch s = .ok w ∧ decode w = .error (.unimplementedOpcode op) ∧
      cycle s = .next (s.enterFault (.unimplementedOpcode op))) ∨
    (∃ w i, fetch s = .ok w ∧ decode w = .ok i ∧ cycle s = exec i s) := by
  cases hf : fetch s with
  | error e => exact .inl ⟨e, rfl, by simp [cycle, hf]⟩
  | ok w =>
    cases hd : decode w with
    | error d =>
      obtain ⟨op⟩ := d
      exact .inr (.inl ⟨w, op, rfl, hd, by simp [cycle, hf, decodeStage, hd]⟩)
    | ok i => exact .inr (.inr ⟨w, i, rfl, hd, by simp [cycle, hf, decodeStage, hd]⟩)

theorem step_running {s : State} (h : s.runState = .running) : step s = cycle s := by
  unfold step; rw [h]

theorem step_not_running {s : State} (h : s.runState ≠ .running) : step s = hostStep s := by
  unfold step
  cases hr : s.runState with
  | running => exact absurd hr h
  | _ => rfl

/-- Everything a host command can do when it is taken: nothing, the start of a RUN, or a PUSH. -/
theorem hostCommand_next {c : HostCommand} {s u : State} (h : hostCommand c s = .next u) :
    u = s ∨ (c = .run ∧ s.runState = .idle ∧ u = { s with runState := .running }) ∨
    (∃ v, c = .push v ∧ (s.runState = .idle ∨ s.runState = .halted) ∧
      u = { s with inQueue := s.inQueue ++ [v] }) := by
  cases c with
  | push v =>
    simp only [hostCommand, hostPush] at h
    split at h <;> cases h
    · exact .inr (.inr ⟨v, rfl, .inl ‹_›, rfl⟩)
    · exact .inr (.inr ⟨v, rfl, .inr ‹_›, rfl⟩)
  | run =>
    simp only [hostCommand, hostRun] at h
    split at h <;> cases h
    · exact .inr (.inl ⟨rfl, ‹_›, rfl⟩)
    · exact .inl rfl
  | inspect q =>
    simp only [hostCommand, hostInspect] at h
    split at h <;> cases h
    exact .inl rfl

/-- Everything a step of a machine that is not RUNNING can do. -/
theorem hostStep_next {s u : State} (h : hostStep s = .next u) :
    (s.hostCommands = [] ∧ s.runState ≠ .faulted ∧ u = s) ∨
    ∃ c rest, s.hostCommands = c :: rest ∧
      hostCommand c { s with hostCommands := rest } = .next u := by
  unfold hostStep at h
  split at h
  · exact .inr ⟨_, _, ‹_›, h⟩
  · split at h
    · cases h
    · cases h; exact .inl ⟨‹_›, ‹_›, rfl⟩

end Sys2Proof.Machine
end

