-- ==== Sys2Proof/Tests/Slice0.lean ====
section
/-! SUPPORT. Tests: words written out from the spec's encoding, single steps whose results are the
vectors of spec/95_test_vectors.md, and for each statement with hypotheses a state that meets them. -/

namespace Sys2Proof.Tests

open Sys2Proof.Machine

/-! ### Helpers -/

/-- A RUNNING machine whose memory is the image and nothing else. -/
def prog (image : List Int) : State :=
  { State.reset with
    memLen := image.length, mem := Memory.ofImage 0 (image.map wrap64), runState := .running }

/-- The image in a memory of `size` cells. -/
def progIn (size : Nat) (image : List Int) : State := { prog image with memLen := size }

/-- The result is a next state with the property. -/
def nextHas (r : Result) (p : State → Bool) : Bool :=
  match r with
  | .next u => p u
  | .fault _ => false
  | .refused _ => false

theorem nextHas_spec {r : Result} {p : State → Bool} (h : nextHas r p = true) :
    ∃ u, r = .next u ∧ p u = true := by
  cases r with
  | next u => exact ⟨u, rfl, h⟩
  | fault _ => cases h
  | refused _ => cases h

/-- FAULT(c, i) with memory as in `s` and the pc at `pc` (R126, R230). -/
def faulted (s : State) (c : Nat) (i pc : Int) (u : State) : Bool :=
  decide (u.runState = .faulted ∧ u.faultCause.code = c ∧ u.faultInfo.toInt = i ∧
    u.pc.toInt = pc ∧ u.mem = s.mem)

/-! ### WellFormed smoke: each check refuses an ill-formed term -/

theorem test_mode_digit_below_three_refused : (Mode.unassigned 2).wellFormed = false := by decide
theorem test_mode_digit_above_nine_refused : (Mode.unassigned 10).wellFormed = false := by decide
theorem test_instr_with_ill_formed_mode_refused :
    (Instr.add .position .position (.unassigned 0)).wellFormed = false := by decide
theorem test_immediate_destination_illegal :
    (Instr.add .position .position .immediate).legalModes = false := by decide
theorem test_unassigned_read_illegal : (Instr.out (.unassigned 3)).legalModes = false := by decide
theorem test_unassigned_destination_illegal :
    (Instr.inp (.unassigned 9)).legalModes = false := by decide

/-! ### Decoding: one word of each constructor, digit by digit from R80 and R97 -/

-- 21101: op 01, m1 = 1, m2 = 1, m3 = 2
theorem test_decode_add : decode 21101 = .ok (.add .immediate .immediate .relative) := by decide
-- 1002: op 02, m1 = 0, m2 = 1, m3 = 0
theorem test_decode_mul : decode 1002 = .ok (.mul .position .immediate .position) := by decide
-- 103: op 03, m1 = 1, illegal for a destination but decoded
theorem test_decode_in : decode 103 = .ok (.inp .immediate) := by decide
-- 90104: op 04, m1 = 1, the digits 0 and 9 above it ignored
theorem test_decode_out : decode 90104 = .ok (.out .immediate) := by decide
-- 105: op 05, m1 = 1, m2 = 0
theorem test_decode_jt : decode 105 = .ok (.jt .immediate .position) := by decide
-- 1206: op 06, m1 = 2, m2 = 1
theorem test_decode_jf : decode 1206 = .ok (.jf .relative .immediate) := by decide
-- 21207: op 07, m1 = 2, m2 = 1, m3 = 2
theorem test_decode_lt : decode 21207 = .ok (.lt .relative .immediate .relative) := by decide
-- 11108: op 08, m1 = 1, m2 = 1, m3 = 1
theorem test_decode_eq : decode 11108 = .ok (.eq .immediate .immediate .immediate) := by decide
-- 309: op 09, m1 = 3
theorem test_decode_arb : decode 309 = .ok (.arb (.unassigned 3)) := by decide
-- 1000099: op 99, every other digit ignored
theorem test_decode_halt : decode 1000099 = .ok .halt := by decide
theorem test_decode_zero : decode 0 = .error (.unimplementedOpcode 0) := by decide
theorem test_decode_minus_99 : decode (wrap64 (-99)) = .error (.unimplementedOpcode (-99)) := by decide
theorem test_table_word_out : decodeTableWord 8 4 = some (.out .position) := by decide
theorem test_table_word_second_cell_ignored :
    decodeTableWord 128 (99 + 7 * 2 ^ 64) = some .halt := by decide

/-- R114: `ADD #100, #-1, 4`. -/
theorem test_assemble_add :
    (Stmt.add (.immediate 100) (.immediate (wrap64 (-1))) (.position 4)).assemble
      = some [1101, 100, wrap64 (-1), 4] := by decide

/-! ### One step of each instruction (95_test_vectors.md) -/

-- V-ADD-2: (2^63 - 1) + 1 wraps
theorem test_add_wraps : nextHas (step (prog [1101, 9223372036854775807, 1, 5, 99, 0]))
    (fun u => u.mem.read 5 = wrap64 (-9223372036854775808) && u.pc = 4) = true := by decide
-- V-ADD-1: the instruction's own word is both operands and the destination
theorem test_add_own_word : nextHas (step (prog [1, 0, 0, 0, 99]))
    (fun u => u.mem.read 0 = 2 && u.runState = .running) = true := by decide
-- V-MUL-5: 2^62 * 2
theorem test_mul_wraps : nextHas (step (prog [1102, 4611686018427387904, 2, 5, 99, 0]))
    (fun u => u.mem.read 5 = wrap64 (-9223372036854775808)) = true := by decide
-- V-MUL-2: 3 * -4
theorem test_mul_signs : nextHas (step (prog [1102, 3, -4, 5, 99, 0]))
    (fun u => u.mem.read 5 = wrap64 (-12)) = true := by decide
-- V-IN-3: relative destination, a negative input
theorem test_in_queue : nextHas (step { prog [203, 3, 99, 0, 0] with inQueue := [wrap64 (-9)] })
    (fun u => u.mem.read 3 = wrap64 (-9) && u.inCursor = 1 && u.pc = 2) = true := by decide
-- V-F-14: the destination is checked before the input
theorem test_in_destination_first :
    nextHas (step (prog [3, 9, 99])) (faulted (prog [3, 9, 99]) 1 0 0) = true := by decide
-- V-OUT-1
theorem test_out_suspends : nextHas (step (prog [104, 7, 99]))
    (fun u => u.lastOut = some 7 && u.pc = 2 && u.runState = .idle && !u.halted) = true := by decide
-- V-OUT-6
theorem test_out_mode_three :
    nextHas (step (prog [304, 0, 99])) (faulted (prog [304, 0, 99]) 2 3 0) = true := by decide
-- V-JT-3: a negative condition is true
theorem test_jt_taken : nextHas (step (prog [1105, -1, 4, 0, 99])) (fun u => u.pc = 4) = true := by
  decide
-- V-JT-7: the target is resolved although the jump is not taken
theorem test_jt_eager_target :
    nextHas (step (prog [105, 0, 9, 99])) (faulted (prog [105, 0, 9, 99]) 1 0 0) = true := by decide
-- V-JF-1
theorem test_jf_taken : nextHas (step (prog [1106, 0, 4, 0, 99])) (fun u => u.pc = 4) = true := by
  decide
-- V-JF-3
theorem test_jf_not_taken : nextHas (step (prog [1106, -9223372036854775808, 4, 99, 0]))
    (fun u => u.pc = 3) = true := by decide
-- V-LT-3 and V-LT-4: the comparison is signed
theorem test_lt_signed : nextHas (step (prog [1107, -9223372036854775808, 9223372036854775807, 5, 99, 7]))
    (fun u => u.mem.read 5 = 1) = true := by decide
theorem test_lt_not : nextHas (step (prog [1107, 0, -1, 5, 99, 7]))
    (fun u => u.mem.read 5 = 0 && !u.mem.any fun c => decide (c.1 = 5)) = true := by decide
-- V-EQ-3: position operands
theorem test_eq_position : nextHas (step (prog [8, 5, 6, 5, 99, -3, -3]))
    (fun u => u.mem.read 5 = 1) = true := by decide
-- V-EQ-4: immediate destination
theorem test_eq_immediate_destination :
    nextHas (step (prog [11108, 1, 1, 5, 99, 0])) (faulted (prog [11108, 1, 1, 5, 99, 0]) 2 1 0)
      = true := by decide
-- V-ARB-2: a negative base is legal
theorem test_arb_negative : nextHas (step (prog [109, -5, 99]))
    (fun u => u.rb = wrap64 (-5) && u.pc = 2) = true := by decide
-- V-ARB-5, second instruction: the base wraps
theorem test_arb_wraps : nextHas (step { prog [109, 1, 99] with rb := wrap64 9223372036854775807 })
    (fun u => u.rb = wrap64 (-9223372036854775808)) = true := by decide
-- V-HALT-3: cell 1 is never read
theorem test_halt : nextHas (step (prog [199, 12345]))
    (fun u => u.halted && u.runState = .halted) = true := by decide

/-- V-IN-6, second instruction: the producer's answer is appended and consumed, whatever it is. -/
theorem test_in_producer : ∃ u, step { prog [3, 6, 99, 0, 0, 0, 0] with
      inQueue := [1], inCursor := 1, producerPresent := true } = .next u ∧
    u.inQueue = [1, Config.producerAnswer 0] ∧ u.inCursor = 2 ∧ u.producerDraws = 1 :=
  ⟨_, rfl, rfl, rfl, rfl⟩

/-! ### Faults and their priority (95_test_vectors.md 2.7) -/

theorem test_fault_opcode_42 :
    nextHas (step (prog [1242])) (faulted (prog [1242]) 3 42 0) = true := by decide
theorem test_fault_negative_word :
    nextHas (step (prog [-1])) (faulted (prog [-1]) 3 (-1) 0) = true := by decide
-- V-F-6: the raw read of offset 2 fails before m3 = 3 is examined
theorem test_fault_priority :
    nextHas (step (prog [30001, 0])) (faulted (prog [30001, 0]) 1 0 0) = true := by decide
-- V-F-10: an empty memory
theorem test_fault_empty_memory :
    nextHas (step (prog [])) (faulted (prog []) 1 0 0) = true := by decide
-- V-JT-5: a jump target of -1 is found out at the fetch
theorem test_fault_fetch_negative :
    nextHas (step { prog [1105, 1, -1] with pc := wrap64 (-1) })
      (faulted (prog [1105, 1, -1]) 1 0 (-1)) = true := by decide

/-! ### The host -/

-- L1-8: RUN after halt changes nothing
theorem test_run_after_halt :
    nextHas (step { prog [99] with runState := .halted, halted := true, hostCommands := [.run] })
      (fun u => decide (u = { prog [99] with runState := .halted, halted := true })) = true := by decide
theorem test_construct_target_too_small :
    construct [1, 2] (some 1) false = .refused .targetSizeTooSmall := rfl
-- L1-3: the pre-sized cell reads 0
theorem test_construct_presized : nextHas (construct [99] (some 2001) true)
    (fun u => u.memLen = 2001 && u.mem.read 2000 = 0 && u.mem.read 0 = 99 && u.producerPresent) = true := by
  decide
theorem test_with_fetch_word_runs : nextHas (step (State.reset.withFetchWord 8 99))
    (fun u => u.halted) = true := by decide
theorem test_reset_with_no_command_waits :
    nextHas (step State.reset) (fun u => decide (u = State.reset)) = true := by decide

/-! ### Witnesses: the hypotheses of each statement can be met together -/

theorem witness_WrapReducesIntoWord :
    (-2 ^ 63 : Int) ≤ 2 ^ 63 - 1 ∧ (wrap64 (2 ^ 63 - 1)).toInt = 2 ^ 63 - 1 ∧
    (wrap64 (-2 ^ 63)).toInt = -2 ^ 63 := by decide
theorem witness_DecodingDivisionTruncates :
    (0 : Int) < 100 ∧ trem (-1) 100 = -1 ∧ trem 199 100 = 99 ∧ trem 0 100 = 0 := by decide
theorem witness_DecodeEncodeAgree :
    (Instr.add .immediate (.unassigned 9) .relative).wellFormed = true := by decide
theorem witness_CanonicalWordOfEveryInstruction :
    0 ≤ (90104 : Word).toInt ∧ opcodeField 90104 = 4 ∧ opcodeField 99 = 99 := by decide
theorem witness_UnusedDigitsIgnored :
    decode 104 = .ok (.out .immediate) ∧ 0 ≤ (90104 : Word).toInt ∧
    opcodeField 90104 = opcodeField 104 ∧ dig 90104 2 = dig 104 2 := by decide
theorem witness_OpcodeMapIsComplete :
    decode 99 = .ok .halt ∧ decode 0 = .error (.unimplementedOpcode 0) ∧
    decode 10 = .error (.unimplementedOpcode 10) ∧ decode 98 = .error (.unimplementedOpcode 98) ∧
    decode (wrap64 (-99)) = .error (.unimplementedOpcode (-99)) := by decide
theorem witness_NegativeWordsAreUnimplemented :
    (wrap64 (-1)).toInt < 0 ∧ (prog [-1]).runState = .running ∧
    fetch (prog [-1]) = .ok (wrap64 (-1)) := by decide

/-- The five pseudo-instructions' cells, each at the pc of a RUNNING core. -/
theorem witness_PseudoInstructionsHaveTheirEffect :
    (Pseudo.jmp (.immediate 4)).expand.assemble = some [1105, 1, 4] ∧
    CellsAt (prog [1105, 1, 4]) 0 [1105, 1, 4] ∧
    readOperand (prog [1105, 1, 4]) 2 .immediate = .ok 4 ∧
    (Pseudo.mov (.position 4) (.position 5)).expand.assemble = some [1001, 4, 0, 5] ∧
    CellsAt (prog [1001, 4, 0, 5, 7, 0]) 0 [1001, 4, 0, 5] ∧
    readOperand (prog [1001, 4, 0, 5, 7, 0]) 1 .position = .ok 7 ∧
    writeAddress (prog [1001, 4, 0, 5, 7, 0]) 3 .position = .ok 5 ∧
    (Pseudo.clr (.position 4)).expand.assemble = some [1101, 0, 0, 4] ∧
    CellsAt (prog [1101, 0, 0, 4, 7]) 0 [1101, 0, 0, 4] ∧
    writeAddress (prog [1101, 0, 0, 4, 7]) 3 .position = .ok 4 ∧
    Pseudo.nop.expand.assemble = some [1105, 0, 0] ∧ CellsAt (prog [1105, 0, 0]) 0 [1105, 0, 0] ∧
    (Pseudo.neg (.position 4) (.position 5)).expand.assemble = some [1002, 4, wrap64 (-1), 5] ∧
    CellsAt (prog [1002, 4, -1, 5, 7, 0]) 0 [1002, 4, wrap64 (-1), 5] := by
  unfold CellsAt; decide

theorem witness_StepRunsDecodedInstruction :
    (prog [1002, 4, 3, 4, 33]).runState = .running ∧ (prog [1002, 4, 3, 4, 33]).inRange 0 ∧
    decode ((prog [1002, 4, 3, 4, 33]).mem.read 0) = .ok (.mul .position .immediate .position) := by
  decide
theorem witness_FetchOutsideMemoryFaults :
    (prog [1]).runState = .running ∧
    ({ prog [1] with pc := wrap64 (-1) } : State).pc.toInt < 0 ∧
    ((prog [1]).memLen : Int) ≤ ({ prog [1] with pc := 1 } : State).pc.toInt ∧
    0 ≤ (prog [1]).pc.toInt ∧ (prog [1]).pc.toInt < (prog [1]).memLen := by decide
theorem witness_UnimplementedOpcodeFaults :
    (prog [100]).inRange 0 ∧ opcodeField ((prog [100]).mem.read 0) = 0 ∧
    opcodeField ((prog [10]).mem.read 0) = 10 ∧ opcodeField ((prog [98]).mem.read 0) = 98 := by decide
/-- Each digit's clause, in range and out of it, at offset 1. -/
theorem witness_ReadOperandByMode :
    0 ≤ (104 : Word).toInt ∧ dig 4 2 = 0 ∧ dig 104 2 = 1 ∧ dig 204 2 = 2 ∧ dig 304 2 = 3 ∧
    (prog [4, 1]).inRange 1 ∧ ¬ (prog [4]).inRange 1 ∧
    readOperand (prog [4, 1]) 1 .position = .ok 1 ∧
    readOperand (prog [4, 2]) 1 .position = .error .outOfRange := by decide
theorem witness_WriteAddressByMode :
    dig 3 2 = 0 ∧ dig 103 2 = 1 ∧ dig 203 2 = 2 ∧ dig 903 2 = 9 ∧
    (prog [3, 1]).inRange 1 ∧ ¬ (prog [3]).inRange 1 ∧
    writeAddress (prog [3, 1]) 1 .position = .ok 1 ∧
    writeAddress (prog [3, 2]) 1 .position = .error .outOfRange ∧
    writeAddress (prog [203, -1]) 1 .relative = .error .outOfRange := by decide
theorem witness_IllegalModeDigitsRaise :
    (Mode.unassigned 3).wellFormed = true ∧
    readOperand (prog [304, 0]) 1 (.unassigned 3) = .error (.unsupportedAddressingMode 3) ∧
    writeAddress (prog [103, 0]) 1 .immediate = .error (.unsupportedAddressingMode 1) ∧
    writeAddress (prog [903, 0]) 1 (.unassigned 9) = .error (.unsupportedAddressingMode 9) := by decide

/-- ADD, MUL, LT and EQ: a state in which all three arguments resolve, and one for each argument that
can raise. -/
theorem witness_storing_instructions :
    readOperand (prog [1002, 4, 3, 4, 33]) 1 .position = .ok 33 ∧
    readOperand (prog [1002, 4, 3, 4, 33]) 2 .immediate = .ok 3 ∧
    writeAddress (prog [1002, 4, 3, 4, 33]) 3 .position = .ok 4 ∧
    readOperand (prog [301, 0, 0, 0]) 1 (.unassigned 3) = .error (.unsupportedAddressingMode 3) ∧
    readOperand (prog [101, 0]) 1 .immediate = .ok 0 ∧
    readOperand (prog [101, 0]) 2 .position = .error .outOfRange ∧
    readOperand (prog [1101, 1, 1, 7]) 2 .immediate = .ok 1 ∧
    writeAddress (prog [1101, 1, 1, 7]) 3 .position = .error .outOfRange := by decide
/-- R180, R181: operands on each side of the comparison. -/
theorem witness_comparisons :
    (3 : Word).toInt < (33 : Word).toInt ∧ (3 : Word).toInt ≤ (33 : Word).toInt ∧
    (3 : Word).toInt = (3 : Word).toInt ∧ (wrap64 (-1)).toInt ≠ (1 : Word).toInt := by decide
theorem witness_InputTakesNextValue :
    writeAddress (prog [3, 0, 99]) 1 .position = .ok 0 ∧
    ({ prog [3, 0, 99] with inQueue := [7] } : State).inQueue[0]? = some 7 ∧
    (prog [3, 0, 99]).inQueue.length ≤ (prog [3, 0, 99]).inCursor ∧
    ({ prog [3, 0, 99] with producerPresent := true } : State).producerPresent = true ∧
    (prog [3, 0, 99]).producerPresent = false ∧
    writeAddress (prog [3, 9, 99]) 1 .position = .error .outOfRange ∧
    nextHas (exec (.inp .position) { prog [3, 0, 99] with inQueue := [7] })
      (fun u => u.inCursor = 1) = true := by decide
theorem witness_OutputSuspends :
    readOperand (prog [104, 7]) 1 .immediate = .ok 7 ∧
    readOperand (prog [4, 9]) 1 .position = .error .outOfRange := by decide
theorem witness_jumps :
    readOperand (prog [1105, -1, 4]) 1 .immediate = .ok (wrap64 (-1)) ∧
    readOperand (prog [1105, -1, 4]) 2 .immediate = .ok 4 ∧ (wrap64 (-1)).toInt ≠ 0 ∧
    readOperand (prog [1106, 0, 4]) 1 .immediate = .ok 0 ∧ (0 : Word).toInt = 0 ∧
    readOperand (prog [5, 9, 4]) 1 .position = .error .outOfRange ∧
    readOperand (prog [105, 0, 9]) 1 .immediate = .ok 0 ∧
    readOperand (prog [105, 0, 9]) 2 .position = .error .outOfRange := by decide
theorem witness_AdjustBaseAddsOperand :
    readOperand (prog [109, 2000, 99]) 1 .immediate = .ok 2000 ∧
    readOperand (prog [309, 2000, 99]) 1 (.unassigned 3)
      = .error (.unsupportedAddressingMode 3) := by decide
/-- L1-3: the base becomes 2000 in a memory of 2001 cells; then the operands and the relative
destination with raw offset 0 of the next instruction, a storing one and an IN. -/
theorem witness_RelativeStoreUsesAdjustedBase :
    readOperand (progIn 2001 [109, 2000, 21101, 7, 8, 0, 99]) 1 .immediate = .ok 2000 ∧
    wrap64 ((0 : Word).toInt + (2000 : Word).toInt) = 2000 ∧
    2000 < (progIn 2001 [109, 2000, 21101, 7, 8, 0, 99]).memLen ∧
    nextHas (exec (.arb .immediate) (progIn 2001 [109, 2000, 21101, 7, 8, 0, 99]))
      (fun u => decide (rawArg u 3 = .ok 0 ∧ readOperand u 1 .immediate = .ok 7 ∧
        readOperand u 2 .immediate = .ok 8)) = true ∧
    nextHas (exec (.arb .immediate) { progIn 2001 [109, 2000, 203, 0, 99] with inQueue := [5] })
      (fun u => decide (rawArg u 1 = .ok 0 ∧ u.inQueue[u.inCursor]? = some 5)) = true ∧
    nextHas (exec (.arb .immediate) { progIn 2001 [109, 2000, 203, 0, 99] with producerPresent := true })
      (fun u => decide (u.inQueue.length ≤ u.inCursor ∧ u.producerPresent = true)) = true := by decide
theorem witness_HaltStopsForGood :
    decode 199 = .ok .halt ∧ 0 ≤ (199 : Word).toInt ∧ trem (199 : Word).toInt 100 = 99 ∧
    nextHas (exec .halt { prog [99] with hostCommands := [.push 5, .run] })
      (fun u => nextHas (core.run 2 u) (fun t => decide (t.inQueue = [5] ∧ t.hostCommands = []))) = true := by
  decide
theorem witness_StoringInstructionsFrame :
    ∃ u, exec (.add .position .position .position) (prog [1, 0, 0, 0, 99]) = .next u ∧
      decide (writeAddress (prog [1, 0, 0, 0, 99]) 3 .position = .ok 0) = true :=
  nextHas_spec (p := fun _ => decide (writeAddress (prog [1, 0, 0, 0, 99]) 3 .position = .ok 0))
    (by decide)
theorem witness_StoringInstructionsFrame_raises :
    ∃ u, exec (.eq .immediate .immediate .immediate) (prog [11108, 1, 1, 5, 99, 0]) = .next u ∧
      decide (u.runState = .faulted) = true := nextHas_spec (by decide)
theorem witness_InputFrame :
    ∃ u, exec (.inp .position) { prog [3, 0, 99] with inQueue := [7] } = .next u ∧
      decide (u.mem.read 0 = 7) = true := nextHas_spec (by decide)
theorem witness_RegisterInstructionsFrame :
    nextHas (exec (.out .immediate) (prog [104, 7])) (fun u => u.runState = .idle) = true ∧
    nextHas (exec (.jt .immediate .immediate) (prog [1105, 1, 0])) (fun u => u.pc = 0) = true ∧
    nextHas (exec (.jf .immediate .immediate) (prog [1106, 0, 0])) (fun u => u.pc = 0) = true ∧
    nextHas (exec (.arb .immediate) (prog [109, 5])) (fun u => u.rb = 5) = true ∧
    nextHas (exec .halt (prog [99])) (fun u => u.halted) = true ∧
    nextHas (exec (.out .position) (prog [4, 9])) (fun u => u.runState = .faulted) = true := by decide
theorem witness_PcMovesByWidthOrJump :
    ∃ u, exec (.jt .immediate .immediate) (prog [1105, 0, 4, 99, 0]) = .next u ∧
      decide (u.runState = .running ∧ u.pc = 3) = true := nextHas_spec (by decide)
theorem witness_FaultsArePrecise :
    ∃ u, step (prog [3, 0, 99]) = .next u ∧
      decide (u.runState = .faulted ∧ u.faultCause = .inputExhausted) = true :=
  nextHas_spec (by decide)
theorem witness_FaultEntryRecordsCodes : (1 : Nat) ≤ 9 ∧ (-99 : Int) ≤ 98 := by decide
/-- A faulting step with each cause. -/
theorem witness_ErrorsComeFromTheirInstructions :
    nextHas (step (prog [4, 9])) (fun u => u.faultCause = .outOfRange) = true ∧
    nextHas (step (prog [304, 0])) (fun u => u.faultCause = .unsupportedAddressingMode) = true ∧
    nextHas (step (prog [0])) (fun u => u.faultCause = .unimplementedOpcode) = true ∧
    nextHas (step (prog [3, 0])) (fun u => u.faultCause = .inputExhausted) = true := by decide
/-- A step that changes each piece of state. -/
theorem witness_OnlyNamedWritersWrite :
    nextHas (step (prog [1, 0, 0, 0, 99])) (fun u => u.mem ≠ (prog [1, 0, 0, 0, 99]).mem && u.pc ≠ 0)
      = true ∧
    nextHas (step (prog [109, 5])) (fun u => u.rb ≠ 0) = true ∧
    nextHas (step (prog [104, 7])) (fun u => u.lastOut ≠ none && u.runState ≠ .running) = true ∧
    nextHas (step (prog [99])) (fun u => u.halted) = true ∧
    nextHas (step { prog [3, 0] with producerPresent := true })
      (fun u => u.inCursor ≠ 0 && u.inQueue.length ≠ 0) = true ∧
    nextHas (step { State.reset with hostCommands := [.push 5] }) (fun u => u.inQueue ≠ []) = true ∧
    nextHas (step { State.reset with hostCommands := [.run] }) (fun u => u.runState ≠ .idle) = true ∧
    nextHas (step (prog [0])) (fun u => u.faultCause ≠ .none) = true := by decide
theorem witness_MemoryReadsLastWrite :
    Memory.wf [(0, 5), (3, 7)] ∧ Memory.wf (Memory.write [(3, 7)] 0 5) := by decide
theorem witness_ParametersNeverChange :
    ∃ u, step (prog [99]) = .next u ∧ decide (u.memLen = 1) = true := nextHas_spec (by decide)
/-- L1-2: the add writes 99 into cell 4, where the pc then points. -/
theorem witness_StoreIsSeenByNextFetch :
    ∃ u, exec (.add .immediate .immediate .position) (prog [1101, 100, -1, 4, 0]) = .next u ∧
      decide (u.runState = .running ∧ u.pc.toInt = 4 ∧
        writeAddress (prog [1101, 100, -1, 4, 0]) 3 .position = .ok 4 ∧ fetch u = .ok 99) = true :=
  nextHas_spec (by decide)
theorem witness_ConstructionSetsEveryField :
    constructLen [1, 2] (some 1) < [1, 2].length ∧ [(1 : Word), 2].length ≤ constructLen [1, 2] none ∧
    constructLen [] (some (2 ^ 62)) ≤ 2 ^ 62 ∧ 2 ^ 62 < constructLen [] (some (2 ^ 62 + 1)) := by
  decide
theorem witness_ConstructionMeetsInvariant :
    ∃ s, construct [1, 0, 99] (some 8) true = .next s ∧ decide (s.memLen = 8) = true :=
  nextHas_spec (by decide)
/-- A RUNNING state that meets the invariant, and its step. -/
theorem witness_StepKeepsInvariant :
    (prog [1, 0, 0, 0, 99]).Inv ∧ ∃ u, step (prog [1, 0, 0, 0, 99]) = .next u ∧
      decide (u.pc = 4) = true :=
  ⟨⟨by decide, by decide, by decide, by decide, by decide, ⟨by decide, rfl⟩⟩, nextHas_spec (by decide)⟩
theorem witness_PushAppends :
    ({ State.reset with hostCommands := [.push 5] } : State).hostCommands = .push 5 :: [] ∧
    State.reset.runState = .idle ∧
    ({ State.reset with runState := .faulted } : State).runState = .faulted ∧
    nextHas (step { prog [99] with hostCommands := [.push 5] })
      (fun u => u.hostCommands = [.push 5]) = true := by decide
theorem witness_RunStartsIdleCore :
    ({ State.reset with hostCommands := [.run] } : State).hostCommands = .run :: [] ∧
    State.reset.runState = .idle := by decide
theorem witness_RunsAfterHaltChangeNothing :
    ({ State.reset with runState := .halted, hostCommands := [.run, .run, .push 1] } : State).hostCommands
      = List.replicate 2 .run ++ [.push 1] := by decide
theorem witness_HaltedAndFaultedNeverLeft :
    nextHas (step { State.reset with runState := .halted, halted := true, hostCommands := [.push 1] })
      (fun u => u.runState = .halted && u.halted) = true ∧
    nextHas (step { State.reset with runState := .faulted, hostCommands := [.inspect (.status 6)] })
      (fun u => u.runState = .faulted) = true := by decide
/-- L1-6: the first output, with the next RUN pending. -/
theorem witness_OutputIsResumable :
    AtInstr { prog [4, 5, 4, 6, 99, 11, 22] with hostCommands := [.run] } (.out .position) ∧
    readOperand { prog [4, 5, 4, 6, 99, 11, 22] with hostCommands := [.run] } 1 .position = .ok 11 ∧
    nextHas (step { prog [4, 5, 4, 6, 99, 11, 22] with hostCommands := [.run] })
      (fun u => u.lastOut = some 11) = true := by
  refine ⟨⟨4, ?_, ?_⟩, ?_, ?_⟩ <;> decide
theorem witness_InspectReadsEveryField :
    State.reset.runState ≠ .running ∧ State.reset.outValid = false ∧
    ({ State.reset with lastOut := some 7 } : State).lastOut = some 7 ∧
    inspect (.queueEntry 0) { State.reset with inQueue := [wrap64 (-3)] } = .ok (some (-3)) ∧
    inspect (.cell 0) { prog [99] with runState := .idle } = .ok (some 99) ∧
    inspect (.cell 1) { prog [99] with runState := .idle } = .error .inspectOutOfRange ∧
    inspect (.cell (-1)) { prog [99] with runState := .idle } = .error .inspectOutOfRange ∧
    inspect (.status 10) State.reset = .error .inspectOutOfRange ∧
    ({ State.reset with hostCommands := [.inspect (.status 0)] } : State).hostCommands
      = .inspect (.status 0) :: [] := by decide
theorem witness_QueueOnlyGrows :
    ∃ u, step { prog [3, 0, 99] with inQueue := [7] } = .next u ∧
      decide (u.inQueue = [7] ∧ u.inCursor = 1) = true := nextHas_spec (by decide)
/-- A last step of each kind, and one that is not the last. -/
theorem witness_RunEndsByLastStep :
    nextHas (step (prog [1105, 1, 0])) (fun u => u.runState = .running) = true ∧
    nextHas (step (prog [104, 7])) (fun u => runReturn u = some (.output (some 7))) = true ∧
    nextHas (step (prog [99])) (fun u => runReturn u = some .halted) = true ∧
    nextHas (step (prog [42])) (fun u => runReturn u = some (.fault .unimplementedOpcode 42)) = true := by
  decide
/-- V-OUT-1 returns after one step, so its RUN ends. -/
theorem witness_RunReturnsInOneState :
    (prog [104, 7, 99]).runState = .running ∧
    ((runUntilReturn 2 (prog [104, 7, 99])).map fun u => u.lastOut) = some (some 7) ∧
    ((runUntilReturn 5 (prog [104, 7, 99])).map fun u => u.lastOut) = some (some 7) ∧
    State.reset.runState ≠ .running := by decide
theorem witness_RunReturnsOrHangs :
    (prog [1105, 1, 0]).runState = .running ∧ runUntilReturn 5 (prog [1105, 1, 0]) = none := by decide
/-- V-JT-8. -/
theorem witness_JumpToItselfHangs :
    AtInstr (prog [1105, 1, 0]) (.jt .immediate .immediate) ∧
    readOperand (prog [1105, 1, 0]) 1 .immediate = .ok 1 ∧ (1 : Word).toInt ≠ 0 ∧
    readOperand (prog [1105, 1, 0]) 2 .immediate = .ok (prog [1105, 1, 0]).pc := by
  refine ⟨⟨1105, ?_, ?_⟩, ?_, ?_, ?_⟩ <;> decide
theorem witness_PendingCommandsDoNotInterfere :
    ∃ u, step { prog [104, 7] with hostCommands := [.run, .push 1] } = .next u ∧
      decide (u.hostCommands = [.run, .push 1]) = true := nextHas_spec (by decide)
theorem witness_ConsumedInputDoesNotInterfere :
    ({ prog [3, 0] with inQueue := [7, 8], inCursor := 1 } : State).inQueue = [7] ++ [8] ∧
    ∃ u, step { prog [3, 0] with inQueue := [7, 8], inCursor := 1 } = .next u ∧
      decide (u.mem.read 0 = 8) = true := ⟨rfl, nextHas_spec (by decide)⟩
/-- Two machines with the same core and parameters and different pending commands. -/
theorem witness_CoreStepDependsOnCoreStateAlone :
    (prog [104, 7]).runState = .running ∧
    ({ prog [104, 7] with hostCommands := [.run] } : State).toCoreState = (prog [104, 7]).toCoreState ∧
    ({ prog [104, 7] with hostCommands := [.run] } : State).toParams = (prog [104, 7]).toParams ∧
    ({ prog [104, 7] with hostCommands := [.run] } : State) ≠ prog [104, 7] ∧
    nextHas (step (prog [104, 7])) (fun u => u.runState = .idle) = true := by decide
theorem witness_NothingHappensUnasked :
    State.reset.hostCommands = [] ∧ State.reset.runState = .idle ∧
    step { State.reset with runState := .faulted, faultCause := .outOfRange }
      = .fault (.fatal .outOfRange 0) := ⟨rfl, rfl, rfl⟩
theorem witness_PlacedWordRunsNext : decodeTableWord 16 1101 = some (.add .immediate .immediate .position) ∧
    (State.reset.withFetchWord 16 1101).memLen = 4 := by decide

end Sys2Proof.Tests
end

section
/-! PROOFS. Words and the division used for decoding (00_scope.md R11 to R13). -/

namespace Sys2Proof

/-- R11: quotient and remainder give the dividend back. -/
theorem mul_tdiv_add_trem (a b : Int) : b * tdiv a b + trem a b = a := by
  unfold trem
  omega

theorem natAbs_trem_lt (a : Int) {b : Int} (hb : b ≠ 0) : (trem a b).natAbs < b.natAbs := by
  rw [trem_eq_tmod, Int.natAbs_tmod]
  exact Nat.mod_lt _ (Int.natAbs_pos.mpr hb)

/-- R11: the remainder has the sign of a negative dividend. -/
theorem trem_nonpos {a : Int} (ha : a ≤ 0) (b : Int) : trem a b ≤ 0 := by
  have h : 0 ≤ Int.tmod (-a) b := Int.tmod_nonneg b (by omega)
  rw [Int.neg_tmod] at h
  rw [trem_eq_tmod]
  omega

/-- Settles O1: the formula of R12 is `wrap64_toInt`, and the range of a word is `word_bounds`. -/
theorem wrapReducesIntoWord : Obligations.WrapReducesIntoWord := by
  refine ⟨wrap64_toInt, fun w => ?_, fun n hlo hhi => wrap64_toInt_of_bounds ⟨hlo, by omega⟩⟩
  have := word_bounds w
  omega

/-- Settles O2: truncation and the remainder's sign, for each sign of the dividend; the digit is R13's
definition. -/
theorem decodingDivisionTruncates : Obligations.DecodingDivisionTruncates := by
  refine ⟨fun a b hb => ⟨?_, ?_, fun ha => ⟨?_, ?_, ?_⟩, fun ha => ?_⟩, fun w k => rfl⟩
  · exact (mul_tdiv_add_trem a b).symm
  · exact natAbs_trem_lt a hb.ne'
  · rw [trem_of_nonneg ha]
    exact Int.emod_nonneg a hb.ne'
  · exact tdiv_of_nonneg ha
  · exact trem_of_nonneg ha
  · exact trem_nonpos ha b

end Sys2Proof
end

section
/-! PROOFS. The machines CONSTRUCT makes (70_reset_and_hazards.md R260). -/

namespace Sys2Proof.Machine

/-- R8, R260: the image fits the memory, the memory is small enough, and the state is the reset state
but for the three things CONSTRUCT sets. -/
theorem construct_next {image : List Word} {target : Option Nat} {present : Bool} {s : State}
    (h : construct image target present = .next s) :
    image.length ≤ constructLen image target ∧ constructLen image target ≤ Config.maxMemLen ∧
    s = { State.reset with
      memLen := constructLen image target
      mem := Memory.ofImage 0 image
      producerPresent := present } := by
  unfold construct at h
  split_ifs at h with hfit hlen
  cases h
  exact ⟨by omega, by omega, rfl⟩

/-- Settles O42: the image is canonical within its length, and every other field is at its reset value. -/
theorem constructionMeetsInvariant : Obligations.ConstructionMeetsInvariant := by
  intro image target present s h
  obtain ⟨hfit, hlen, rfl⟩ := construct_next h
  exact {
    memWf := Memory.wf_ofImage 0 image
    memBound := fun c hc => by
      have := Memory.mem_ofImage hc
      change c.1 < constructLen image target
      omega
    lenBound := hlen
    cursorBound := le_refl 0
    haltedIff := by simp [State.reset]
    faultStatus := ⟨by simp [State.reset], rfl⟩ }

end Sys2Proof.Machine
end

section
/-! PROOFS. A whole RUN (40_execute_cycle.md R129; 46_run_control.md R204, R205, R211). -/

namespace Sys2Proof.Machine

/-- R18: a step of a RUNNING core is no stop and no refusal. -/
theorem step_total_of_running {s : State} (h : s.runState = .running) : ∃ u, step s = .next u := by
  rw [step_running h]
  rcases cycle_cases s with ⟨e, -, hc⟩ | ⟨w, op, -, -, hc⟩ | ⟨w, i, -, -, hc⟩
  · exact ⟨_, hc⟩
  · exact ⟨_, hc⟩
  · rw [hc]
    exact exec_total i s

theorem runReturn_eq_none {s : State} : runReturn s = none ↔ s.runState = .running := by
  unfold runReturn
  cases s.runState <;> simp

@[simp] theorem runUntilReturn_zero (s : State) : runUntilReturn 0 s = none := rfl

theorem runUntilReturn_not_running {s : State} (h : s.runState ≠ .running) (fuel : Nat) :
    runUntilReturn (fuel + 1) s = some s := by
  unfold runUntilReturn
  cases hr : s.runState with
  | running => exact absurd hr h
  | _ => rfl

theorem runUntilReturn_running {s u : State} (h : s.runState = .running) (hs : step s = .next u)
    (fuel : Nat) : runUntilReturn (fuel + 1) s = runUntilReturn fuel u := by
  rw [runUntilReturn, h, hs]

/-- R129: a RUN returns only in a state that is no longer RUNNING. -/
theorem runUntilReturn_some_not_running {fuel : Nat} {s t : State}
    (h : runUntilReturn fuel s = some t) : t.runState ≠ .running := by
  induction fuel generalizing s with
  | zero => simp at h
  | succ fuel ih =>
    by_cases hr : s.runState = .running
    · obtain ⟨u, hu⟩ := step_total_of_running hr
      rw [runUntilReturn_running hr hu] at h
      exact ih h
    · rw [runUntilReturn_not_running hr] at h
      cases h
      exact hr

theorem RunEnds.not_running {s t : State} (h : RunEnds s t) : t.runState ≠ .running :=
  h.elim fun _ hf => runUntilReturn_some_not_running hf

/-- R211: a hang is exactly a RUN that ends in no state. -/
theorem hangs_iff {s : State} (h : s.runState = .running) : Hangs s ↔ ¬ ∃ t, RunEnds s t := by
  constructor
  · rintro ⟨-, hnone⟩ ⟨t, fuel, hf⟩
    simp [hnone fuel] at hf
  · intro hend
    refine ⟨h, fun fuel => Option.eq_none_iff_forall_ne_some.mpr fun t ht => ?_⟩
    exact hend ⟨t, fuel, ht⟩

/-- Settles O54: a RUN that does not hang ends, in a state that is not RUNNING and so gives the host a
value. -/
theorem runReturnsOrHangs : Obligations.RunReturnsOrHangs := by
  intro s h
  refine ⟨step_total_of_running h, ?_, fun ⟨hh, hend⟩ => (hangs_iff h).mp hh hend⟩
  by_cases hend : ∃ t, RunEnds s t
  · obtain ⟨t, ht⟩ := hend
    exact .inr ⟨t, ht, fun hnone => ht.not_running (runReturn_eq_none.mp hnone)⟩
  · exact .inl ((hangs_iff h).mpr hend)

end Sys2Proof.Machine
end

section
/-! PROOFS. What an instruction's effect writes, by the fields of the register file it touches
(10_state.md R34), and the frames of the ten instructions. -/

namespace Sys2Proof.Machine

/-- The four instructions of the shape `storeBinary`, with their three modes. -/
def StoresBinary (i : Instr) (m1 m2 m3 : Mode) : Prop :=
  i = .add m1 m2 m3 ∨ i = .mul m1 m2 m3 ∨ i = .lt m1 m2 m3 ∨ i = .eq m1 m2 m3

/-- The effect of an instruction as far as its writes go: which fields move, the value written left
open. `Effect.writes` ties it to the effects themselves. -/
inductive Writes (s : State) : Instr → State → Prop where
  | store {i : Instr} {m1 m2 m3 : Mode} {d : Nat} {v : Word} (hi : StoresBinary i m1 m2 m3)
      (hd : writeAddress s 3 m3 = .ok d) : Writes s i ((memWrite s d v).advance 4)
  | input {m : Mode} {d : Nat} {v : Word} {t : State} (hd : writeAddress s 1 m = .ok d)
      (hn : nextInput s = .ok (v, t)) : Writes s (.inp m) ((memWrite t d v).advance 2)
  | output {m : Mode} {a : Word} : Writes s (.out m) ((s.emit a).advance 2).suspend
  | jump {i : Instr} {m1 m2 : Mode} {p : Word} (hi : i = .jt m1 m2 ∨ i = .jf m1 m2) :
      Writes s i (s.jump p)
  | base {m : Mode} {v : Word} : Writes s (.arb m) ((s.setBase v).advance 2)
  | halt : Writes s .halt (s.advance Config.haltPcAdvance.val).halt

theorem Effect.store {i : Instr} {m1 m2 m3 : Mode} {s u : State} (hi : StoresBinary i m1 m2 m3)
    (h : Effect i s u) :
    ∃ d v, writeAddress s 3 m3 = .ok d ∧ u = (memWrite s d v).advance 4 := by
  rcases hi with rfl | rfl | rfl | rfl <;>
    · obtain ⟨_, _, d, -, -, hd, rfl⟩ := h
      exact ⟨d, _, hd, rfl⟩

/-- A jump not taken moves the pc as well: its advance is one more value written there. -/
theorem Effect.jump {i : Instr} {m1 m2 : Mode} {s u : State} (hi : i = .jt m1 m2 ∨ i = .jf m1 m2)
    (h : Effect i s u) : ∃ p, u = s.jump p := by
  rcases hi with rfl | rfl <;>
    · obtain ⟨_, t, -, -, rfl⟩ := h
      split
      · exact ⟨t, rfl⟩
      · exact ⟨_, rfl⟩

theorem Effect.writes {i : Instr} {s u : State} (h : Effect i s u) : Writes s i u := by
  have store {m1 m2 m3} (hi : StoresBinary i m1 m2 m3) : Writes s i u := by
    obtain ⟨d, v, hd, rfl⟩ := h.store hi
    exact .store hi hd
  have jump {m1 m2} (hi : i = .jt m1 m2 ∨ i = .jf m1 m2) : Writes s i u := by
    obtain ⟨p, rfl⟩ := h.jump hi
    exact .jump hi
  cases i with
  | add => exact store (.inl rfl)
  | mul => exact store (.inr (.inl rfl))
  | lt => exact store (.inr (.inr (.inl rfl)))
  | eq => exact store (.inr (.inr (.inr rfl)))
  | inp =>
    obtain ⟨d, v, t, hd, hn, rfl⟩ := h
    exact .input hd hn
  | out =>
    obtain ⟨a, -, rfl⟩ := h
    exact .output
  | jt => exact jump (.inl rfl)
  | jf => exact jump (.inr rfl)
  | arb =>
    obtain ⟨a, -, rfl⟩ := h
    exact .base
  | halt =>
    obtain rfl := h
    exact .halt

/-- R152: the fields that `NextInput` may move. The queue moves only by an answer of the producer. -/
theorem nextInput_frame {s t : State} {v : Word} (h : nextInput s = .ok (v, t)) :
    ∃ more n, (more = [] ∨ s.producerPresent = true) ∧
      t = { s with inQueue := s.inQueue ++ more, inCursor := s.inCursor + 1, producerDraws := n } := by
  rcases nextInput_ok h with ⟨-, rfl⟩ | ⟨-, hp, -, rfl⟩
  · exact ⟨[], s.producerDraws, .inl rfl, by simp⟩
  · exact ⟨[v], _, .inr hp, rfl⟩

/-- R27, R152: an input value is taken from the queue, so the cursor stays within it. -/
theorem nextInput_cursor_le {s t : State} {v : Word} (h : nextInput s = .ok (v, t))
    (hs : s.inCursor ≤ s.inQueue.length) : t.inCursor ≤ t.inQueue.length := by
  rcases nextInput_ok h with ⟨hv, rfl⟩ | ⟨-, -, -, rfl⟩
  · exact (List.getElem?_eq_some_iff.mp hv).1
  · simpa using hs

/-- R61, R93: a write to the resolved destination is seen in no other cell. -/
theorem read_write_writeAddress {s : State} {k : Nat} {m : Mode} {d : Nat}
    (hd : writeAddress s k m = .ok d) (v : Word) :
    (∀ d', writeAddress s k m = .ok d' → ∀ a, a ≠ d' →
      (s.mem.write d v).read a = s.mem.read a) ∧
    (∀ e, writeAddress s k m = .error e → ∀ a, (s.mem.write d v).read a = s.mem.read a) := by
  rw [hd]
  refine ⟨fun d' hd' a ha => ?_, fun e he => nomatch he⟩
  cases hd'
  exact Memory.read_write_of_ne ha s.mem v

/-- Settles O29: a store moves one cell and the pc, and a raise moves neither. -/
theorem storingInstructionsFrame : Obligations.StoringInstructionsFrame := by
  intro m1 m2 m3 i s u hi h
  rcases exec_next h with he | ⟨e, -, rfl⟩
  · obtain ⟨d, v, hd, rfl⟩ := he.store hi
    exact ⟨.inl rfl, read_write_writeAddress hd v⟩
  · exact ⟨.inr rfl, fun _ _ _ _ => rfl, fun _ _ _ => rfl⟩

/-- Settles O30: as for the other stores, beside what `NextInput` moves. -/
theorem inputFrame : Obligations.InputFrame := by
  intro m1 s u h
  rcases exec_next h with ⟨d, v, t, hd, hn, rfl⟩ | ⟨e, -, rfl⟩
  · obtain ⟨more, n, -, rfl⟩ := nextInput_frame hn
    exact ⟨.inl rfl, read_write_writeAddress hd v⟩
  · exact ⟨.inr rfl, fun _ _ _ _ => rfl, fun _ _ _ => rfl⟩

/-- Settles O31: HALT raises nothing; each of the other four has its effect or a fault entry. -/
theorem registerInstructionsFrame : Obligations.RegisterInstructionsFrame := by
  intro m1 m2 i s u hi h
  by_cases hh : i = .halt
  · subst hh
    cases h
    exact ⟨fun _ => rfl, .inr (.inr (.inr (.inl ⟨rfl, rfl⟩)))⟩
  rcases exec_next h with he | ⟨e, -, rfl⟩
  · have jump (hj : i = .jt m1 m2 ∨ i = .jf m1 m2) :
        (∀ a, u.mem.read a = s.mem.read a) ∧ u = { s with pc := u.pc } := by
      obtain ⟨p, rfl⟩ := he.jump hj
      exact ⟨fun _ => rfl, rfl⟩
    rcases hi with rfl | hj | hj | rfl | hi
    · obtain ⟨a, -, rfl⟩ := he
      exact ⟨fun _ => rfl, .inl ⟨rfl, rfl⟩⟩
    · exact (jump (.inl hj)).imp_right fun hu => .inr (.inl ⟨.inl hj, hu⟩)
    · exact (jump (.inr hj)).imp_right fun hu => .inr (.inl ⟨.inr hj, hu⟩)
    · obtain ⟨a, -, rfl⟩ := he
      exact ⟨fun _ => rfl, .inr (.inr (.inl ⟨rfl, rfl⟩))⟩
    · exact absurd hi hh
  · exact ⟨fun _ => rfl, .inr (.inr (.inr (.inr ⟨hh, rfl⟩)))⟩

end Sys2Proof.Machine
end

section
/-! PROOFS. Everything one step can do, said once, and the statements about every step: the write
table, the input queue, the states that are never left, and the invariant (10_state.md). -/

namespace Sys2Proof.Machine

/-- The errors a step of a RUNNING core can raise: at the fetch, at the decode stage, or in the
instruction (60_exceptions.md R231). -/
inductive StepRaises (s : State) : FatalError → Prop where
  | fetch {e : FatalError} (h : fetch s = .error e) : StepRaises s e
  | decode {w : Word} {op : Int} (hw : fetch s = .ok w)
      (hd : decode w = .error (.unimplementedOpcode op)) : StepRaises s (.unimplementedOpcode op)
  | exec {i : Instr} {e : FatalError} (hi : AtInstr s i) (h : CanRaise i e) : StepRaises s e

/-- The transitions of the machine; `step_next` ties them to `step`. -/
inductive Transition (s : State) : State → Prop where
  | instr {i : Instr} {u : State} (hr : s.runState = .running) (hi : AtInstr s i)
      (he : Effect i s u) : Transition s u
  | raise {e : FatalError} (hr : s.runState = .running) (he : StepRaises s e) :
      Transition s (s.enterFault e)
  | quiet {cs : List HostCommand} (hr : s.runState ≠ .running) :
      Transition s { s with hostCommands := cs }
  | start {cs : List HostCommand} (hr : s.runState = .idle) (hc : s.hostCommands = .run :: cs) :
      Transition s { s with runState := .running, hostCommands := cs }
  | push {v : Word} {cs : List HostCommand} (hr : s.runState = .idle ∨ s.runState = .halted)
      (hc : s.hostCommands = .push v :: cs) :
      Transition s { s with inQueue := s.inQueue ++ [v], hostCommands := cs }

theorem cycle_next {s u : State} (hr : s.runState = .running) (h : cycle s = .next u) :
    Transition s u := by
  rcases cycle_cases s with ⟨e, hf, hc⟩ | ⟨w, op, hf, hd, hc⟩ | ⟨w, i, hf, hd, hc⟩ <;>
    rw [hc] at h
  · cases h
    exact .raise hr (.fetch hf)
  · cases h
    exact .raise hr (.decode hf hd)
  · rcases exec_next h with he | ⟨e, he, rfl⟩
    · exact .instr hr ⟨w, hf, hd⟩ he
    · exact .raise hr (.exec ⟨w, hf, hd⟩ he)

/-- The inversion of one step, of the core or of the host. -/
theorem step_next {s u : State} (h : step s = .next u) : Transition s u := by
  by_cases hr : s.runState = .running
  · exact cycle_next hr (step_running hr ▸ h)
  · rw [step_not_running hr] at h
    rcases hostStep_next h with ⟨-, -, rfl⟩ | ⟨c, cs, hc, h⟩
    · exact .quiet (cs := u.hostCommands) hr
    · rcases hostCommand_next h with rfl | ⟨rfl, hi, rfl⟩ | ⟨v, rfl, hi, rfl⟩
      · exact .quiet hr
      · exact .start hi hc
      · exact .push hi hc

/-- Settles O37: the fields a transition does not write are closed by `absurd rfl`; what is left of
R34's table are the fields it does write. -/
theorem onlyNamedWritersWrite : Obligations.OnlyNamedWritersWrite := by
  intro s u h
  cases step_next h with
  | @instr i _ hr hi he =>
    cases he.writes with
    | @store _ m1 m2 m3 _ _ hs =>
      have hat : AtInstr s (.add m1 m2 m3) ∨ AtInstr s (.mul m1 m2 m3) ∨ AtInstr s (.inp m1) ∨
          AtInstr s (.lt m1 m2 m3) ∨ AtInstr s (.eq m1 m2 m3) := by
        rcases hs with rfl | rfl | rfl | rfl <;> simp [hi]
      exact ⟨fun _ => ⟨hr, m1, m2, m3, hat⟩, fun _ => ⟨hr, i, hi⟩, absurd rfl, absurd rfl,
        absurd rfl, absurd rfl, absurd rfl, Or.rec (absurd rfl) (absurd rfl), absurd rfl⟩
    | @input m _ _ _ _ hn =>
      obtain ⟨more, n, hmore, rfl⟩ := nextInput_frame hn
      have queue (hq : s.inQueue ++ more ≠ s.inQueue) : s.producerPresent = true :=
        hmore.resolve_left fun hnil => hq (by simp [hnil])
      exact ⟨fun _ => ⟨hr, m, m, m, .inr (.inr (.inl hi))⟩, fun _ => ⟨hr, _, hi⟩, absurd rfl,
        absurd rfl, absurd rfl, fun _ => ⟨hr, m, hi⟩, fun hq => .inl ⟨hr, queue hq, m, hi⟩,
        Or.rec (absurd rfl) (absurd rfl), absurd rfl⟩
    | @output m =>
      exact ⟨absurd rfl, fun _ => ⟨hr, _, hi⟩, absurd rfl, fun _ => ⟨hr, m, hi⟩, absurd rfl,
        absurd rfl, absurd rfl, Or.rec (absurd rfl) (absurd rfl),
        fun _ => .inl ⟨hr, .inr (.inl ⟨rfl, m, hi⟩)⟩⟩
    | jump =>
      exact ⟨absurd rfl, fun _ => ⟨hr, i, hi⟩, absurd rfl, absurd rfl, absurd rfl, absurd rfl,
        absurd rfl, Or.rec (absurd rfl) (absurd rfl), absurd rfl⟩
    | @base m =>
      exact ⟨absurd rfl, fun _ => ⟨hr, _, hi⟩, fun _ => ⟨hr, m, hi⟩, absurd rfl, absurd rfl,
        absurd rfl, absurd rfl, Or.rec (absurd rfl) (absurd rfl), absurd rfl⟩
    | halt =>
      exact ⟨absurd rfl, fun _ => ⟨hr, _, hi⟩, absurd rfl, absurd rfl, fun _ => ⟨hr, hi⟩, absurd rfl,
        absurd rfl, Or.rec (absurd rfl) (absurd rfl), fun _ => .inl ⟨hr, .inr (.inr ⟨rfl, hi⟩)⟩⟩
  | raise hr =>
    exact ⟨absurd rfl, absurd rfl, absurd rfl, absurd rfl, absurd rfl, absurd rfl, absurd rfl,
      fun _ => ⟨hr, rfl⟩, fun _ => .inl ⟨hr, .inl rfl⟩⟩
  | quiet =>
    exact ⟨absurd rfl, absurd rfl, absurd rfl, absurd rfl, absurd rfl, absurd rfl, absurd rfl,
      Or.rec (absurd rfl) (absurd rfl), absurd rfl⟩
  | start hr hc =>
    exact ⟨absurd rfl, absurd rfl, absurd rfl, absurd rfl, absurd rfl, absurd rfl, absurd rfl,
      Or.rec (absurd rfl) (absurd rfl), fun _ => .inr ⟨hr, by simp [hc], rfl⟩⟩
  | @push v _ _ hc =>
    exact ⟨absurd rfl, absurd rfl, absurd rfl, absurd rfl, absurd rfl, absurd rfl,
      fun _ => .inr ⟨v, by simp [hc], rfl⟩, Or.rec (absurd rfl) (absurd rfl), absurd rfl⟩

/-- Settles O51: only IN moves the cursor; only IN and a PUSH append. -/
theorem queueOnlyGrows : Obligations.QueueOnlyGrows := by
  intro s u h
  have same : ∃ more, s.inQueue = s.inQueue ++ more := ⟨[], (List.append_nil _).symm⟩
  cases step_next h with
  | instr _ _ he =>
    cases he.writes with
    | input _ hn =>
      obtain ⟨more, n, -, rfl⟩ := nextInput_frame hn
      exact ⟨⟨more, rfl⟩, .inr rfl⟩
    | _ => exact ⟨same, .inl rfl⟩
  | @push v => exact ⟨⟨[v], rfl⟩, .inl rfl⟩
  | _ => exact ⟨same, .inl rfl⟩

/-- Settles O48: the core moves only in RUNNING, RUN starts only an IDLE core, and HALT only sets the
halted flag. -/
theorem haltedAndFaultedNeverLeft : Obligations.HaltedAndFaultedNeverLeft := by
  intro s u h
  cases step_next h with
  | instr hr _ he =>
    refine ⟨by simp [hr], by simp [hr], ?_⟩
    cases he.writes with
    | input _ hn =>
      obtain ⟨_, _, -, rfl⟩ := nextInput_frame hn
      exact id
    | halt => exact fun _ => rfl
    | _ => exact id
  | raise hr => exact ⟨by simp [hr], by simp [hr], id⟩
  | quiet => exact ⟨fun _ => ⟨[], by simp⟩, fun _ => rfl, id⟩
  | start hr => exact ⟨by simp [hr], by simp [hr], id⟩
  | @push v _ hr =>
    refine ⟨fun _ => ⟨[v], rfl⟩, fun hf => ?_, id⟩
    rcases hr with hr | hr <;> simp [hr] at hf

/-- R51, R201: no step changes a parameter of the machine. -/
theorem step_toParams {s u : State} (h : step s = .next u) : u.toParams = s.toParams := by
  cases step_next h with
  | instr _ _ he =>
    cases he.writes with
    | input _ hn =>
      obtain ⟨_, _, -, rfl⟩ := nextInput_frame hn
      rfl
    | _ => rfl
  | _ => rfl

/-! ### The invariant -/

/-- Settles O43: the reset state is the construction of the empty image. -/
theorem resetMeetsInvariant : Obligations.ResetMeetsInvariant :=
  constructionMeetsInvariant [] none false State.reset rfl

/-- R94: a digit that is illegal for a role is 1 to 9: 0 is legal for both. -/
theorem digit_bounds_of_illegal {m : Mode} {r : Role} (hw : m.wellFormed = true)
    (hl : m.legal r = false) : 1 ≤ m.digit ∧ m.digit ≤ 9 := by
  refine ⟨?_, Mode.digit_le_nine hw⟩
  cases m with
  | position => cases r <;> simp [Mode.legal] at hl
  | immediate => simp [Mode.digit]
  | relative => simp [Mode.digit]
  | unassigned d =>
    simp only [Mode.wellFormed, decide_eq_true_eq] at hw
    simp only [Mode.digit]
    omega

/-- R230: what fault entry records has the form of R30. -/
theorem StepRaises.faultStatusOk {s : State} {e : FatalError} (h : StepRaises s e) :
    faultStatusOk .faulted e.cause e.info := by
  cases h with
  | fetch h =>
    obtain ⟨-, rfl⟩ := memRead_error.mp h
    exact ⟨rfl, rfl⟩
  | @decode w op _ hd =>
    obtain ⟨hop, hno, hhalt⟩ := decode_error hd
    have hb := opcodeField_bounds w
    refine ⟨rfl, ?_⟩
    simp only [FatalError.info]
    rw [wrap64_toInt_of_bounds (by omega)]
    omega
  | @exec i _ hi h =>
    rcases h with rfl | ⟨r, m, hm, hl, rfl⟩ | ⟨rfl, -⟩
    · exact ⟨rfl, rfl⟩
    · obtain ⟨w, -, hd⟩ := hi
      obtain ⟨-, -, hwf⟩ := decode_ok hd
      have hb : 1 ≤ m.digit ∧ m.digit ≤ 9 :=
        digit_bounds_of_illegal (List.all_eq_true.mp hwf _ hm) hl
      refine ⟨rfl, ?_⟩
      simp only [FatalError.info]
      rw [wrap64_toInt_of_bounds (by omega)]
      omega
    · exact ⟨rfl, rfl⟩

/-- R30: outside FAULTED the fault status is empty, whatever the run state. -/
theorem faultStatusOk_of_ne_faulted {r r' : RunState} {c : FaultCause} {i : Word}
    (h : faultStatusOk r c i) (hr : r ≠ .faulted) (hr' : r' ≠ .faulted) : faultStatusOk r' c i := by
  cases c with
  | none => exact ⟨hr', h.2⟩
  | _ => exact absurd h.1 hr

/-- R50: a store to a cell of memory keeps memory canonical and within its length. -/
theorem State.Inv.memWrite {s : State} (h : s.Inv) {d : Nat} (hd : d < s.memLen) (v : Word) :
    (memWrite s d v).Inv where
  memWf := Memory.wf_write h.memWf d v
  memBound := fun c hc => by
    rcases Memory.mem_write hc with ⟨rfl, -⟩ | hc
    · exact hd
    · exact h.memBound c hc
  lenBound := h.lenBound
  cursorBound := h.cursorBound
  haltedIff := h.haltedIff
  faultStatus := h.faultStatus

/-- R152: taking an input value moves only the queue and the cursor within it. -/
theorem State.Inv.nextInput {s t : State} {v : Word} (h : s.Inv) (hn : nextInput s = .ok (v, t)) :
    t.Inv := by
  have hcursor := nextInput_cursor_le hn h.cursorBound
  obtain ⟨more, n, -, rfl⟩ := nextInput_frame hn
  exact { h with cursorBound := hcursor }

/-- A RUNNING core is not halted and holds no fault status, so any run state but FAULTED may follow
with the halted flag it asks for. -/
theorem Writes.inv {s u : State} {i : Instr} (h : Writes s i u) (hr : s.runState = .running)
    (hs : s.Inv) : u.Inv := by
  have hhalted : s.halted = false := by
    have := hs.haltedIff
    simpa [hr] using this
  have hfault {r : RunState} (hne : r ≠ .faulted) : faultStatusOk r s.faultCause s.faultInfo :=
    faultStatusOk_of_ne_faulted hs.faultStatus (by simp [hr]) hne
  cases h with
  | store _ hd => exact { hs.memWrite (writeAddress_lt hd) _ with }
  | @input _ d v t hd hn =>
    have hlen : d < t.memLen := by
      obtain ⟨_, _, -, rfl⟩ := nextInput_frame hn
      exact writeAddress_lt hd
    exact { (hs.nextInput hn).memWrite hlen v with }
  | output =>
    exact { hs with haltedIff := by simp [hhalted], faultStatus := hfault (by simp) }
  | jump => exact { hs with }
  | base => exact { hs with }
  | halt => exact { hs with haltedIff := by simp, faultStatus := hfault (by simp) }

/-- Settles O44: the instructions by what they write, a raise by what it records, and the host's
commands, of which RUN only leaves IDLE. -/
theorem stepKeepsInvariant : Obligations.StepKeepsInvariant := by
  intro s u hs h
  have hhalted := hs.haltedIff
  cases step_next h with
  | instr hr _ he => exact he.writes.inv hr hs
  | raise hr he =>
    exact { hs with haltedIff := by simpa [hr] using hhalted, faultStatus := he.faultStatusOk }
  | quiet => exact { hs with }
  | start hr =>
    exact { hs with
      haltedIff := by simpa [hr] using hhalted
      faultStatus := faultStatusOk_of_ne_faulted hs.faultStatus (by simp [hr]) (by simp) }
  | push => exact { hs with cursorBound := by have := hs.cursorBound; simp; omega }

end Sys2Proof.Machine
end

section
/-! PROOFS. Noninterference: what a step of a RUNNING core does not depend on (10_state.md R21, R26,
R27; 40_execute_cycle.md R128). -/

namespace Sys2Proof.Machine

/-- A change of what only `NextInput` and the host read: the queue, the producer's counter and the
pending commands. -/
structure Relabel where
  queue : List Word → List Word
  draws : Nat → Nat
  commands : List HostCommand → List HostCommand

def Relabel.apply (g : Relabel) (s : State) : State :=
  { s with
    inQueue := g.queue s.inQueue
    producerDraws := g.draws s.producerDraws
    hostCommands := g.commands s.hostCommands }

section
variable (g : Relabel)

@[simp] theorem fetch_relabel (s : State) : fetch (g.apply s) = fetch s := rfl

@[simp] theorem readOperand_relabel (s : State) (k : Nat) (m : Mode) :
    readOperand (g.apply s) k m = readOperand s k m := by cases m <;> rfl

@[simp] theorem writeAddress_relabel (s : State) (k : Nat) (m : Mode) :
    writeAddress (g.apply s) k m = writeAddress s k m := by cases m <;> rfl

theorem complete_relabel {s u : State} {r : Except FatalError State} (h : complete s r = .next u) :
    complete (g.apply s) (g.apply <$> r) = .next (g.apply u) := by
  cases r <;> cases h <;> rfl

theorem storeBinary_relabel {f : Word → Word → Word} {m1 m2 m3 : Mode} {s u : State}
    (h : storeBinary f m1 m2 m3 s = .next u) :
    storeBinary f m1 m2 m3 (g.apply s) = .next (g.apply u) := by
  rw [← complete_relabel g h]
  simp only [storeBinary, readOperand_relabel, writeAddress_relabel, map_bind]
  rfl

theorem jumpIf_relabel {p : Word → Bool} {m1 m2 : Mode} {s u : State}
    (h : jumpIf p m1 m2 s = .next u) : jumpIf p m1 m2 (g.apply s) = .next (g.apply u) := by
  rw [← complete_relabel g h]
  simp only [jumpIf, readOperand_relabel, map_bind, map_pure, apply_ite g.apply]
  rfl

/-- The change does not show in the next input value, and it commutes with taking it. -/
def Relabel.KeepsInput (s : State) : Prop :=
  nextInput (g.apply s) = Prod.map id g.apply <$> nextInput s

theorem exec_relabel {i : Instr} {s u : State} (hn : g.KeepsInput s) (h : exec i s = .next u) :
    exec i (g.apply s) = .next (g.apply u) := by
  cases i with
  | add | mul | lt | eq => exact storeBinary_relabel g h
  | jt | jf => exact jumpIf_relabel g h
  | inp m =>
    rw [← complete_relabel g h, exec, execIn, writeAddress_relabel, hn]
    simp only [map_bind, bind_map_left]
    rfl
  | out m =>
    rw [← complete_relabel g h, exec, execOut, readOperand_relabel, map_bind]
    rfl
  | arb m =>
    rw [← complete_relabel g h, exec, execArb, readOperand_relabel, map_bind]
    rfl
  | halt => cases h; rfl

/-- A step of a RUNNING core sees of the queue, the producer and the host only the next input value. -/
theorem step_relabel {s u : State} (hr : s.runState = .running) (hn : g.KeepsInput s)
    (h : step s = .next u) : step (g.apply s) = .next (g.apply u) := by
  have hr' : (g.apply s).runState = .running := hr
  rw [step_running hr, cycle] at h
  rw [step_running hr', cycle, fetch_relabel]
  cases hf : fetch s with
  | error e => rw [hf] at h; cases h; rfl
  | ok w =>
    rw [hf] at h
    cases hd : decodeStage w with
    | error e => simp only [hd] at h ⊢; cases h; rfl
    | ok i => simp only [hd] at h ⊢; exact exec_relabel g hn h

end

/-- A change that keeps the value at the cursor or its absence, what the producer would answer then,
and the one draw and the one value appended by that answer, keeps the next input value. -/
theorem Relabel.keepsInput_of {g : Relabel} {s : State}
    (hread : (g.queue s.inQueue)[s.inCursor]? = s.inQueue[s.inCursor]?)
    (hanswer : Config.producerAnswer (g.draws s.producerDraws) =
      Config.producerAnswer s.producerDraws)
    (hqueue : ∀ v, g.queue (s.inQueue ++ [v]) = g.queue s.inQueue ++ [v])
    (hdraws : g.draws (s.producerDraws + 1) = g.draws s.producerDraws + 1) : g.KeepsInput s := by
  unfold Relabel.KeepsInput nextInput
  simp only [Relabel.apply, hread, hanswer]
  cases s.inQueue[s.inCursor]? with
  | some v => rfl
  | none =>
    cases s.producerPresent with
    | false => rfl
    | true => simp [Relabel.apply, hqueue, hdraws]

/-- The queue from its first values replaced, as many of them as `p` has. -/
def Relabel.replacePrefix (p : List Word) : Relabel where
  queue q := p ++ q.drop p.length
  draws := id
  commands := id

/-- R27, R152: the next input value stands at the cursor, behind the values replaced. -/
theorem replacePrefix_keepsInput {s : State} {p p' rest : List Word} (hq : s.inQueue = p ++ rest)
    (hc : s.inCursor = p.length) (hl : p'.length = p.length) :
    (Relabel.replacePrefix p').KeepsInput s := by
  apply Relabel.keepsInput_of
  · simp [Relabel.replacePrefix, hq, hc, hl, List.getElem?_append_right]
  · rfl
  · simp [Relabel.replacePrefix, hq, hl]
  · rfl

/-- Settles O57: a step commutes with replacing the consumed values, and the queue after it still
begins with them. -/
theorem consumedInputDoesNotInterfere : Obligations.ConsumedInputDoesNotInterfere := by
  intro s u p p' rest hr hq hc hl h
  obtain ⟨⟨more, hmore⟩, -⟩ := queueOnlyGrows s u h
  have hu : u.inQueue = p ++ (rest ++ more) := by rw [hmore, hq, List.append_assoc]
  have hstep := step_relabel _ hr (replacePrefix_keepsInput hq hc hl) h
  refine ⟨rest ++ more, hu, ?_⟩
  simpa [Relabel.apply, Relabel.replacePrefix, hq, hu, hl] using hstep

/-- The producer at its draw `n'` where it was at `n`, and other pending commands. -/
def Relabel.agents (n n' : Nat) (cs : List HostCommand) : Relabel where
  queue := id
  draws k := k - n + n'
  commands _ := cs

theorem agents_keepsInput {s : State} {n' : Nat} (cs : List HostCommand)
    (h : Config.producerAnswer n' = Config.producerAnswer s.producerDraws) :
    (Relabel.agents s.producerDraws n' cs).KeepsInput s := by
  apply Relabel.keepsInput_of
  · rfl
  · simpa [Relabel.agents] using h
  · exact fun _ => rfl
  · simp only [Relabel.agents]
    omega

/-- Machines with the same core and parameters differ in their agents only. -/
theorem eq_agents_apply {s s' : State} (hcore : s'.toCoreState = s.toCoreState)
    (hparams : s'.toParams = s.toParams) :
    s' = (Relabel.agents s.producerDraws s'.producerDraws s'.hostCommands).apply s := by
  obtain ⟨core, params, ⟨n, cs⟩⟩ := s
  obtain ⟨core', params', ⟨n', cs'⟩⟩ := s'
  cases hcore
  cases hparams
  simp [Relabel.apply, Relabel.agents]

/-- Settles O58: the second machine is the first with other agents, which a step keeps apart. -/
theorem coreStepDependsOnCoreStateAlone : Obligations.CoreStepDependsOnCoreStateAlone := by
  intro s s' u hr hcore hparams hanswer h
  have hstep := step_relabel _ hr (agents_keepsInput s'.hostCommands hanswer) h
  rw [← eq_agents_apply hcore hparams] at hstep
  have hp := step_toParams h
  exact ⟨_, hstep, rfl, hp⟩

end Sys2Proof.Machine
end

section
/-! PROOFS. Memory: reads after writes, the canonical form, the parameters, and a stored word seen by
the next fetch (20_memory.md). -/

namespace Sys2Proof.Machine

/-- The entries of a canonical memory are its non-zero cells. -/
theorem Memory.mem_iff_read {m : Memory} (h : m.wf) (c : Nat × Word) :
    c ∈ m ↔ m.read c.1 = c.2 ∧ c.2 ≠ 0 := by
  obtain ⟨hsort, hne⟩ := h
  induction m with
  | nil => exact ⟨fun hm => absurd hm List.not_mem_nil, fun ⟨hv, hc⟩ => absurd hv.symm hc⟩
  | cons d m ih =>
    obtain ⟨hbelow, hsort⟩ := List.pairwise_cons.mp hsort
    obtain ⟨hd, hne⟩ := List.forall_mem_cons.mp hne
    have ih := ih hsort hne
    rw [List.mem_cons, Memory.read_cons]
    split
    · next hc =>
      have hnot : c ∉ m := fun hm => (hbelow c hm).ne hc.symm
      constructor
      · rintro (rfl | hm)
        · exact ⟨rfl, hd⟩
        · exact absurd hm hnot
      · exact fun ⟨hv, _⟩ => .inl (Prod.ext hc hv.symm)
    · next hc => rw [← ih, or_iff_right fun e => hc (congrArg Prod.fst e)]

/-- Canonical memories are determined by what they read: sorted lists with the same entries. -/
theorem Memory.eq_of_read_eq {m m' : Memory} (h : m.wf) (h' : m'.wf)
    (hread : ∀ a, m.read a = m'.read a) : m = m' := by
  have hasymm : Std.Asymm fun c d : Nat × Word => c.1 < d.1 := ⟨fun _ _ => Nat.lt_asymm⟩
  exact h.1.eq_of_mem_iff h'.1 fun c => by
    rw [Memory.mem_iff_read h, Memory.mem_iff_read h', hread]

/-- Settles O38: the read after a write is `Memory.read_write`. -/
theorem memoryReadsLastWrite : Obligations.MemoryReadsLastWrite :=
  ⟨fun m a b v => Memory.read_write m a v b, fun _ _ => Memory.eq_of_read_eq⟩

/-- Settles O39: both are parameters. -/
theorem parametersNeverChange : Obligations.ParametersNeverChange := by
  intro s u h
  have hp := step_toParams h
  exact ⟨congrArg Params.memLen hp, congrArg Params.producerPresent hp⟩

/-- R65: a fetch reads the value just stored in the cell at the pc. -/
theorem fetch_of_stored_at_pc {s : State} {d n : Nat} {v : Word} (hd : d < s.memLen)
    (hpc : ((memWrite s d v).advance n).pc.toInt = d) :
    fetch ((memWrite s d v).advance n) = .ok v := by
  rw [fetch, hpc, memRead_ok]
  exact ⟨⟨by omega, Int.ofNat_lt.mpr hd⟩, Memory.read_write_same s.mem d v⟩

/-- R65: the value that the shared shape of ADD, MUL, LT and EQ stores at the new pc is fetched next. -/
theorem storeBinary_fetch {f : Word → Word → Word} {m1 m2 m3 : Mode} {s u : State} {d : Nat}
    (h : storeBinary f m1 m2 m3 s = .next u) (hu : u.runState = .running)
    (hd : writeAddress s 3 m3 = .ok d) (hpc : u.pc.toInt = d) :
    ∃ a b, readOperand s 1 m1 = .ok a ∧ readOperand s 2 m2 = .ok b ∧ fetch u = .ok (f a b) := by
  rcases storeBinary_cases f m1 m2 m3 s with ⟨a, b, d', ha, hb, hd', hs⟩ | ⟨e, -, hs⟩ <;>
    cases hs.symm.trans h
  · cases hd'.symm.trans hd
    exact ⟨a, b, ha, hb, fetch_of_stored_at_pc (writeAddress_lt hd) hpc⟩
  · simp at hu

theorem aluLt_eq_ite (a b : Word) : aluLt a b = if a.toInt < b.toInt then 1 else 0 := by
  simp [aluLt, boolWord]

theorem aluEq_eq_ite (a b : Word) : aluEq a b = if a.toInt = b.toInt then 1 else 0 := by
  simp [aluEq, boolWord, BitVec.toInt_inj]

/-- Settles O40: the four instructions are the shared shape at their ALU function. -/
theorem storeIsSeenByNextFetch : Obligations.StoreIsSeenByNextFetch := by
  intro m1 m2 m3 i s u d hi _ h hu hd hpc
  rcases hi with rfl | rfl | rfl | rfl
  · exact storeBinary_fetch (f := aluAdd) h hu hd hpc
  · exact storeBinary_fetch (f := aluMul) h hu hd hpc
  · simpa only [aluLt_eq_ite] using storeBinary_fetch (f := aluLt) h hu hd hpc
  · simpa only [aluEq_eq_ite] using storeBinary_fetch (f := aluEq) h hu hd hpc

end Sys2Proof.Machine
end

section
/-! PROOFS. The decoder and the encoder: the opcode map, canonical words and unused digits
(30_encoding.md R82 to R97). -/

namespace Sys2Proof.Machine

/-! ### The digits of a word -/

theorem dig_bounds {w : Word} (h : 0 ≤ w.toInt) (k : Nat) : 0 ≤ dig w k ∧ dig w k ≤ 9 := by
  rw [dig_of_nonneg h]
  omega

/-- R83: a mode field holds its digit. -/
theorem digit_modeField {w : Word} (h : 0 ≤ w.toInt) (k : Nat) :
    ((modeField w k).digit : Int) = dig w (k + 1) :=
  Mode.digit_ofDigit (dig_bounds h (k + 1)).1

/-! ### The opcode map -/

theorem width_eq_args_length (i : Instr) : i.width = i.args.length + 1 := by cases i <;> rfl

theorem lt_width_of_args_getElem? {i : Instr} {k : Nat} {m : Mode}
    (h : (i.args.map Prod.snd)[k]? = some m) : k + 1 < i.width := by
  have hk := (List.getElem?_eq_some_iff.mp h).1
  rw [List.length_map] at hk
  have := width_eq_args_length i
  omega

theorem opcode_mem_map (i : Instr) : 1 ≤ i.opcode ∧ i.opcode ≤ 9 ∨ i.opcode = 99 := by
  cases i <;> simp [Instr.opcode]

/-- R87: the opcode fixes the roles of the arguments. -/
theorem roles_eq_of_opcode (i : Instr) : i.args.map Prod.fst =
    (if i.opcode = 1 ∨ i.opcode = 2 ∨ i.opcode = 7 ∨ i.opcode = 8 then [.read, .read, .dst]
     else if i.opcode = 3 then [.dst]
     else if i.opcode = 4 ∨ i.opcode = 9 then [.read]
     else if i.opcode = 5 ∨ i.opcode = 6 then [.read, .read]
     else []) := by
  cases i <;> rfl

/-- R87, R89: the words that are no instruction, with the raw opcode they are rejected under. -/
theorem decode_eq_error_iff {w : Word} {op : Int} :
    decode w = .error (.unimplementedOpcode op) ↔
      op = opcodeField w ∧ (-99 ≤ op ∧ op ≤ 0 ∨ 10 ≤ op ∧ op ≤ 98) := by
  constructor
  · intro h
    obtain ⟨rfl, hno, hhalt⟩ := decode_error h
    have := opcodeField_bounds w
    exact ⟨rfl, by omega⟩
  · rintro ⟨rfl, hop⟩
    cases hd : decode w with
    | error d =>
      obtain ⟨op⟩ := d
      rw [(decode_error hd).1]
    | ok i =>
      obtain ⟨-, hi, -⟩ := decode_ok hd
      have := opcode_mem_map i
      omega

theorem exists_decode_of_opcodeField {w : Word}
    (h : 1 ≤ opcodeField w ∧ opcodeField w ≤ 9 ∨ opcodeField w = 99) : ∃ i, decode w = .ok i := by
  cases hd : decode w with
  | ok i => exact ⟨i, rfl⟩
  | error d =>
    obtain ⟨op⟩ := d
    obtain ⟨rfl, hno, hhalt⟩ := decode_error hd
    omega

/-- Settles O7: an accepted word field by field is `fields_of_decode`, a rejected one
`decode_eq_error_iff`. -/
theorem opcodeMapIsComplete : Obligations.OpcodeMapIsComplete := by
  refine ⟨fun _ _ _ => ⟨rfl, rfl, rfl, rfl, rfl, rfl, rfl, rfl, rfl, rfl⟩, fun w i h => ?_,
    fun w i h k r m hk => ?_, fun w op => decode_eq_error_iff⟩
  · obtain ⟨-, hop, -⟩ := decode_ok h
    exact ⟨hop, width_eq_args_length i, roles_eq_of_opcode i⟩
  · obtain ⟨hw, -, -⟩ := decode_ok h
    have hm : modeField w (k + 1) = m := (fields_of_decode h).2 k m (by simp [hk])
    exact ⟨hm.symm, hm ▸ digit_modeField hw (k + 1)⟩

/-! ### Canonical words -/

/-- Settles O4: the canonical word has the instruction's opcode and modes in its fields, and these fix
what it decodes to. -/
theorem decodeEncodeAgree : Obligations.DecodeEncodeAgree :=
  fun _ h => decode_eq_of_fields (opcodeField_encode h) (modeField_encode h)

/-- Settles O6: the fields an instruction uses fix what a word decodes to. -/
theorem unusedDigitsIgnored : Obligations.UnusedDigitsIgnored := by
  intro w w' i h _ hop hdig
  obtain ⟨ho, hm⟩ := fields_of_decode h
  refine decode_eq_of_fields (hop.trans ho) fun k m hk => ?_
  rw [modeField, hdig (k + 1) (by omega) (lt_width_of_args_getElem? hk), ← modeField, hm k m hk]

/-- R80: mode digits from place value `p` on stay below the place after the last of them. -/
theorem modeDigits_add_le (p : Nat) (l : List (Role × Mode)) (h : ∀ a ∈ l, a.2.digit ≤ 9) :
    modeDigits p l + p ≤ p * 10 ^ l.length := by
  induction l generalizing p with
  | nil => simp [modeDigits]
  | cons a l ih =>
    obtain ⟨ha, hl⟩ := List.forall_mem_cons.mp h
    calc p * a.2.digit + modeDigits (10 * p) l + p
        ≤ p * 9 + modeDigits (10 * p) l + p := by gcongr
      _ = modeDigits (10 * p) l + 10 * p := by ring
      _ ≤ 10 * p * 10 ^ l.length := ih (10 * p) hl
      _ = p * 10 ^ (l.length + 1) := by ring

/-- R96: a canonical word has no digit above those its arguments use. -/
theorem encode_lt_pow {i : Instr} (h : i.wellFormed = true) :
    (encode i).toInt < 10 ^ (i.width + 1) := by
  obtain ⟨hv, -, ho⟩ := encode_toInt h
  have hm := modeDigits_add_le 100 i.args fun a ha =>
    Mode.digit_le_nine (List.all_eq_true.mp h a ha)
  have hp : 100 * 10 ^ i.args.length = 10 ^ (i.width + 1) := by
    rw [width_eq_args_length]
    ring
  rw [hv]
  exact_mod_cast (by omega : i.opcode + modeDigits 100 i.args < 10 ^ (i.width + 1))

theorem dig_encode_unused {i : Instr} (h : i.wellFormed = true) {k : Nat} (hk : i.width ≤ k) :
    dig (encode i) (k + 1) = 0 := by
  have hlt : (encode i).toInt < 10 ^ (k + 1) :=
    (encode_lt_pow h).trans_le (pow_le_pow_right₀ (by decide) (by omega))
  rw [dig_of_nonneg (encode_nonneg h), Int.ediv_eq_zero_of_lt (encode_nonneg h) hlt]
  rfl

/-- R96: the canonical word has the digits of any word of the instruction where it uses them. -/
theorem dig_encode_used {w : Word} {i : Instr} (h : decode w = .ok i) {k : Nat} (hk : 1 ≤ k)
    (hlt : k < i.width) : dig (encode i) (k + 1) = dig w (k + 1) := by
  obtain ⟨hw, -, hwf⟩ := decode_ok h
  obtain ⟨j, rfl⟩ := Nat.exists_eq_add_of_le' hk
  have hj : j < (i.args.map Prod.snd).length := by
    rw [width_eq_args_length] at hlt
    simpa using hlt
  have hm := List.getElem?_eq_getElem hj
  rw [← digit_modeField (encode_nonneg hwf), ← digit_modeField hw, modeField_encode hwf j _ hm,
    (fields_of_decode h).2 j _ hm]

theorem assembleInstr_eq_some_iff {i : Instr} {ops : List Operand} {cells : List Word} :
    assembleInstr i ops = some cells ↔
      i.legalModes = true ∧ encode i :: ops.map Operand.value = cells := by
  simp [assembleInstr]

/-- Settles O5: a word of the map decodes, and the canonical word of what it decodes to has its used
digits and zeros elsewhere. -/
theorem canonicalWordOfEveryInstruction : Obligations.CanonicalWordOfEveryInstruction := by
  refine ⟨fun i ops cells h => ?_, fun w _ hop => ?_⟩
  · obtain ⟨-, rfl⟩ := assembleInstr_eq_some_iff.mp h
    rfl
  · obtain ⟨i, hi⟩ := exists_decode_of_opcodeField hop
    obtain ⟨-, ho, hwf⟩ := decode_ok hi
    exact ⟨i, hi, decodeEncodeAgree i hwf, (opcodeField_encode hwf).trans ho,
      fun _ => dig_encode_used hi, fun _ => dig_encode_unused hwf⟩

/-! ### The decode stage of a step -/

theorem step_of_decode_ok {s : State} {w : Word} {i : Instr} (hr : s.runState = .running)
    (hf : fetch s = .ok w) (hd : decode w = .ok i) : step s = exec i s := by
  simp [step_running hr, cycle, hf, decodeStage, hd]

theorem step_of_decode_error {s : State} {w : Word} {op : Int} (hr : s.runState = .running)
    (hf : fetch s = .ok w) (hd : decode w = .error (.unimplementedOpcode op)) :
    step s = .next (s.enterFault (.unimplementedOpcode op)) := by
  simp [step_running hr, cycle, hf, decodeStage, hd]

/-- Settles O8: the opcode field of a negative word is none of the map. -/
theorem negativeWordsAreUnimplemented : Obligations.NegativeWordsAreUnimplemented := by
  intro w h
  obtain ⟨hlo, hhi⟩ := opcodeField_nonpos_of_neg h
  have hd := decode_eq_error_iff.mpr ⟨rfl, .inl ⟨hlo, hhi⟩⟩
  exact ⟨hlo, hhi, hd, fun s hr hf => step_of_decode_error hr hf hd⟩

/-- Settles O9: the decoder is run on each word. -/
theorem familyWordsDecode : Obligations.FamilyWordsDecode := by
  unfold Obligations.FamilyWordsDecode
  decide

end Sys2Proof.Machine
end

section
/-! PROOFS. The addressing modes: what each digit resolves to, and which digits raise
(30_encoding.md R90 to R94). -/

namespace Sys2Proof.Machine

/-! ### The mode a digit selects -/

theorem modeField_of_dig_zero {w : Word} {k : Nat} (h : dig w (k + 1) = 0) :
    modeField w k = .position := by simp [modeField, Mode.ofDigit, h]

theorem modeField_of_dig_one {w : Word} {k : Nat} (h : dig w (k + 1) = 1) :
    modeField w k = .immediate := by simp [modeField, Mode.ofDigit, h]

theorem modeField_of_dig_two {w : Word} {k : Nat} (h : dig w (k + 1) = 2) :
    modeField w k = .relative := by simp [modeField, Mode.ofDigit, h]

theorem modeField_of_three_le_dig {w : Word} {k : Nat} (h : 3 ≤ dig w (k + 1)) :
    modeField w k = .unassigned (dig w (k + 1)).toNat := by
  rw [modeField, Mode.ofDigit, if_neg (by omega), if_neg (by omega), if_neg (by omega)]

/-! ### The resolvers, mode by mode -/

/-- R92, R93: what is resolved from the raw argument under a condition `q` on its value. -/
theorem resolve_eq_ite {α : Type} {s : State} {k : Nat} {q : Prop} [Decidable q] {v : α}
    {r : Except FatalError α}
    (hok : rawArg s k = .ok (s.mem.read (s.pc.toInt + k).toNat) →
      r = if q then .ok v else .error .outOfRange)
    (herror : rawArg s k = .error .outOfRange → r = .error .outOfRange) :
    r = if s.inRange (s.pc.toInt + k) ∧ q then .ok v else .error .outOfRange := by
  by_cases h : s.inRange (s.pc.toInt + k)
  · rw [hok (if_pos h)]
    exact if_congr (and_iff_right h).symm rfl rfl
  · rw [herror (if_neg h), if_neg (mt And.left h)]

theorem readOperand_position (s : State) (k : Nat) :
    let raw := (s.mem.read (s.pc.toInt + k).toNat).toInt
    readOperand s k .position =
      if s.inRange (s.pc.toInt + k) ∧ s.inRange raw then .ok (s.mem.read raw.toNat)
      else .error .outOfRange :=
  resolve_eq_ite (fun h => by rw [readOperand, h]; rfl) (fun h => by rw [readOperand, h])

theorem readOperand_relative (s : State) (k : Nat) :
    let a := s.rb.toInt + (s.mem.read (s.pc.toInt + k).toNat).toInt
    readOperand s k .relative =
      if s.inRange (s.pc.toInt + k) ∧ s.inRange a then .ok (s.mem.read a.toNat)
      else .error .outOfRange :=
  resolve_eq_ite (fun h => by rw [readOperand, h]; rfl) (fun h => by rw [readOperand, h])

theorem writeAddress_position (s : State) (k : Nat) :
    let raw := (s.mem.read (s.pc.toInt + k).toNat).toInt
    writeAddress s k .position =
      if s.inRange (s.pc.toInt + k) ∧ s.inRange raw then .ok raw.toNat
      else .error .outOfRange :=
  resolve_eq_ite (fun h => by rw [writeAddress, h]; rfl) (fun h => by rw [writeAddress, h])

theorem writeAddress_relative (s : State) (k : Nat) :
    let a := s.rb.toInt + (s.mem.read (s.pc.toInt + k).toNat).toInt
    writeAddress s k .relative =
      if s.inRange (s.pc.toInt + k) ∧ s.inRange a then .ok a.toNat
      else .error .outOfRange :=
  resolve_eq_ite (fun h => by rw [writeAddress, h]; rfl) (fun h => by rw [writeAddress, h])

/-- R94: an illegal read digit raises before any cell is read. -/
theorem readOperand_of_illegal {m : Mode} (h : m.legal .read = false) (s : State) (k : Nat) :
    readOperand s k m = .error (.unsupportedAddressingMode m.digit) := by
  cases m with
  | unassigned d => rfl
  | _ => cases h

theorem writeAddress_of_illegal {m : Mode} (h : m.legal .dst = false) (s : State) (k : Nat) :
    writeAddress s k m = .error (.unsupportedAddressingMode m.digit) := by
  cases m with
  | unassigned d => rfl
  | immediate => rfl
  | _ => cases h

/-- Settles O15: the digit selects the mode, and each mode has its equation. -/
theorem readOperandByMode : Obligations.ReadOperandByMode := by
  intro s w k hw
  refine ⟨fun h => ?_, fun h => ?_, fun h => ?_, fun h => ?_, dig_bounds hw (k + 1)⟩
  · rw [modeField_of_dig_zero h]
    exact readOperand_position s k
  · rw [modeField_of_dig_one h]
    rfl
  · rw [modeField_of_dig_two h]
    exact readOperand_relative s k
  · rw [modeField_of_three_le_dig h]
    exact readOperand_of_illegal rfl s k

/-- Settles O16: as for the read arguments; an immediate destination is one more illegal digit. -/
theorem writeAddressByMode : Obligations.WriteAddressByMode := by
  intro s w k hw
  refine ⟨fun h => ?_, fun h => ?_, ?_, dig_bounds hw (k + 1)⟩
  · rw [modeField_of_dig_zero h]
    exact writeAddress_position s k
  · rw [modeField_of_dig_two h]
    exact writeAddress_relative s k
  · rintro (h | h)
    · rw [modeField_of_dig_one h, h]
      exact writeAddress_of_illegal rfl s k
    · rw [modeField_of_three_le_dig h]
      exact writeAddress_of_illegal rfl s k

/-! ### Which digits raise -/

theorem legal_read_eq_false_iff {m : Mode} (h : m.wellFormed = true) :
    m.legal .read = false ↔ m.digit ≠ 0 ∧ m.digit ≠ 1 ∧ m.digit ≠ 2 := by
  cases m with
  | unassigned d =>
    simp only [Mode.wellFormed, decide_eq_true_eq] at h
    simp only [Mode.legal, Mode.digit, true_iff]
    omega
  | _ => simp [Mode.legal, Mode.digit]

theorem legal_dst_eq_false_iff {m : Mode} (h : m.wellFormed = true) :
    m.legal .dst = false ↔ m.digit ≠ 0 ∧ m.digit ≠ 2 := by
  cases m with
  | unassigned d =>
    simp only [Mode.wellFormed, decide_eq_true_eq] at h
    simp only [Mode.legal, Mode.digit, true_iff]
    omega
  | _ => simp [Mode.legal, Mode.digit]

theorem readOperand_unsupported_iff {s : State} {k : Nat} {m : Mode} {d : Nat} :
    readOperand s k m = .error (.unsupportedAddressingMode d) ↔
      d = m.digit ∧ m.legal .read = false := by
  constructor
  · intro h
    rcases readOperand_error h with he | ⟨hl, he⟩
    · cases he
    · cases he
      exact ⟨rfl, hl⟩
  · rintro ⟨rfl, hl⟩
    exact readOperand_of_illegal hl s k

theorem writeAddress_unsupported_iff {s : State} {k : Nat} {m : Mode} {d : Nat} :
    writeAddress s k m = .error (.unsupportedAddressingMode d) ↔
      d = m.digit ∧ m.legal .dst = false := by
  constructor
  · intro h
    rcases writeAddress_error h with he | ⟨hl, he⟩
    · cases he
    · cases he
      exact ⟨rfl, hl⟩
  · rintro ⟨rfl, hl⟩
    exact writeAddress_of_illegal hl s k

/-- Settles O17: a resolver raises a mode error exactly for an illegal mode, with its digit. -/
theorem illegalModeDigitsRaise : Obligations.IllegalModeDigitsRaise := by
  intro s k m hm
  refine ⟨fun d => ?_, fun d => ?_⟩
  · rw [readOperand_unsupported_iff, legal_read_eq_false_iff hm]
    exact and_congr_right fun hd => by rw [hd]
  · rw [writeAddress_unsupported_iff, legal_dst_eq_false_iff hm]
    exact and_congr_right fun hd => by rw [hd]

end Sys2Proof.Machine
end

section
/-! PROOFS. The assembler: the cells of a statement, and what the pseudo-instructions do
(30_encoding.md R110 to R113). -/

namespace Sys2Proof.Machine

/-! ### The cells of a statement -/

@[simp] theorem legal_read_mode (a : Operand) : a.mode.legal .read = true := by cases a <;> rfl

theorem legal_dst_mode_iff (d : Operand) : d.mode.legal .dst = true ↔ d.mode ≠ .immediate := by
  cases d <;> simp [Operand.mode, Mode.legal]

/-- R96: the canonical word as a sum, by the number of arguments. -/
theorem encode_of_args_one {i : Instr} {r : Role} {m : Mode} (h : i.args = [(r, m)]) :
    encode i = wrap64 (i.opcode + 100 * m.digit) := by
  simp [encode, h, modeDigits]

theorem encode_of_args_two {i : Instr} {r1 r2 : Role} {m1 m2 : Mode}
    (h : i.args = [(r1, m1), (r2, m2)]) :
    encode i = wrap64 (i.opcode + 100 * m1.digit + 1000 * m2.digit) := by
  simp [encode, h, modeDigits, add_assoc]

theorem encode_of_args_three {i : Instr} {r1 r2 r3 : Role} {m1 m2 m3 : Mode}
    (h : i.args = [(r1, m1), (r2, m2), (r3, m3)]) :
    encode i = wrap64 (i.opcode + 100 * m1.digit + 1000 * m2.digit + 10000 * m3.digit) := by
  simp [encode, h, modeDigits, add_assoc]

/-- R112: a destination operand is the only one that can be refused. -/
theorem assembleInstr_of_dst {i : Instr} {d : Operand} (ops : List Operand)
    (h : i.legalModes = d.mode.legal .dst) :
    assembleInstr i ops =
      if d.mode = .immediate then none else some (encode i :: ops.map Operand.value) := by
  rw [assembleInstr, h, ← ite_not (d.mode = .immediate)]
  exact if_congr (legal_dst_mode_iff d) rfl rfl

theorem assembleInstr_of_legal {i : Instr} (ops : List Operand) (h : i.legalModes = true) :
    assembleInstr i ops = some (encode i :: ops.map Operand.value) := if_pos h

theorem assembleInstr_store {i : Instr} {a b d : Operand}
    (h : i.args = [(.read, a.mode), (.read, b.mode), (.dst, d.mode)]) :
    assembleInstr i [a, b, d] = if d.mode = .immediate then none else
      some [wrap64 (i.opcode + 100 * a.mode.digit + 1000 * b.mode.digit + 10000 * d.mode.digit),
        a.value, b.value, d.value] := by
  rw [assembleInstr_of_dst (d := d) _ (by simp [Instr.legalModes, h]), encode_of_args_three h]
  rfl

theorem assembleInstr_two_reads {i : Instr} {a b : Operand}
    (h : i.args = [(.read, a.mode), (.read, b.mode)]) :
    assembleInstr i [a, b] =
      some [wrap64 (i.opcode + 100 * a.mode.digit + 1000 * b.mode.digit), a.value, b.value] := by
  rw [assembleInstr_of_legal _ (by simp [Instr.legalModes, h]), encode_of_args_two h]
  rfl

theorem assembleInstr_one_read {i : Instr} {a : Operand} (h : i.args = [(.read, a.mode)]) :
    assembleInstr i [a] = some [wrap64 (i.opcode + 100 * a.mode.digit), a.value] := by
  rw [assembleInstr_of_legal _ (by simp [Instr.legalModes, h]), encode_of_args_one h]
  rfl

theorem assembleInstr_one_dst {i : Instr} {d : Operand} (h : i.args = [(.dst, d.mode)]) :
    assembleInstr i [d] = if d.mode = .immediate then none else
      some [wrap64 (i.opcode + 100 * d.mode.digit), d.value] := by
  rw [assembleInstr_of_dst (d := d) _ (by simp [Instr.legalModes, h]), encode_of_args_one h]
  rfl

/-- Settles O10: the statements by the roles of their operands. -/
theorem assemblerPlacesCanonicalCells : Obligations.AssemblerPlacesCanonicalCells := by
  intro a b d
  exact ⟨assembleInstr_store rfl, assembleInstr_store rfl, assembleInstr_one_dst rfl,
    assembleInstr_one_read rfl, assembleInstr_two_reads rfl, assembleInstr_two_reads rfl,
    assembleInstr_store rfl, assembleInstr_store rfl, assembleInstr_one_read rfl, rfl,
    fun _ => rfl⟩

/-! ### Assembled cells at the pc -/

theorem wellFormed_of_legal {r : Role} {m : Mode} (h : m.legal r = true) : m.wellFormed = true := by
  cases m with
  | unassigned d => cases r <;> cases h
  | _ => rfl

theorem wellFormed_of_legalModes {i : Instr} (h : i.legalModes = true) : i.wellFormed = true :=
  List.all_eq_true.mpr fun a ha => wellFormed_of_legal (List.all_eq_true.mp h a ha)

/-- R112, R128: a step at the cells of an assembled instruction runs it. -/
theorem step_of_assembled {s : State} {i : Instr} {ops : List Operand} {cells : List Word}
    (hr : s.runState = .running) (ha : assembleInstr i ops = some cells)
    (hc : CellsAt s s.pc.toInt cells) : step s = exec i s := by
  obtain ⟨hl, rfl⟩ := assembleInstr_eq_some_iff.mp ha
  have hf : fetch s = .ok (encode i) := by simpa [fetch] using hc 0 (by simp)
  exact step_of_decode_ok hr hf (decodeEncodeAgree i (wellFormed_of_legalModes hl))

/-- R91, R92: an immediate operand of an assembled instruction reads as its value. -/
theorem readOperand_of_assembled_immediate {s : State} {i : Instr} {ops : List Operand}
    {cells : List Word} (ha : assembleInstr i ops = some cells) (hc : CellsAt s s.pc.toInt cells)
    {k : Nat} {n : Word} (hk : ops[k]? = some (.immediate n)) :
    readOperand s (k + 1) .immediate = .ok n := by
  obtain ⟨-, rfl⟩ := assembleInstr_eq_some_iff.mp ha
  obtain ⟨hlt, hv⟩ := List.getElem?_eq_some_iff.mp hk
  have h := hc (k + 1) (by simpa using hlt)
  rwa [List.getElem_cons_succ, List.getElem_map, hv] at h

/-! ### The pseudo-instructions -/

theorem aluAdd_zero (v : Word) : aluAdd v 0 = v := by
  simp [aluAdd, wrap64_toInt_self]

theorem aluMul_neg_one (v : Word) : aluMul v (wrap64 (-1)) = wrap64 (-v.toInt) := by
  rw [aluMul, wrap64_toInt_of_bounds (by decide), mul_neg_one]

theorem storeBinary_ok_of_eq {f : Word → Word → Word} {m1 m2 m3 : Mode} {s : State}
    {a b v : Word} {d : Nat} (h1 : readOperand s 1 m1 = .ok a) (h2 : readOperand s 2 m2 = .ok b)
    (h3 : writeAddress s 3 m3 = .ok d) (hv : f a b = v) :
    storeBinary f m1 m2 m3 s = .next ((memWrite s d v).advance 4) :=
  hv ▸ storeBinary_ok h1 h2 h3

/-- Settles O11: each expansion is run with the ALU at its constant operands. -/
theorem pseudoInstructionsHaveTheirEffect : Obligations.PseudoInstructionsHaveTheirEffect := by
  refine ⟨fun a d => ⟨rfl, rfl, rfl, rfl, rfl⟩, fun s x cells hr ha hc => ?_⟩
  cases x with
  | jmp t =>
    intro v hv
    have h1 := readOperand_of_assembled_immediate ha hc (k := 0) rfl
    rw [step_of_assembled hr ha hc]
    exact jumpIf_ok h1 hv
  | mov a d =>
    intro v i hv hi
    have h2 := readOperand_of_assembled_immediate ha hc (k := 1) rfl
    rw [step_of_assembled hr ha hc]
    exact storeBinary_ok_of_eq hv h2 hi (aluAdd_zero _)
  | clr d =>
    intro i hi
    have h1 := readOperand_of_assembled_immediate ha hc (k := 0) rfl
    have h2 := readOperand_of_assembled_immediate ha hc (k := 1) rfl
    rw [step_of_assembled hr ha hc]
    exact storeBinary_ok_of_eq h1 h2 hi (aluAdd_zero _)
  | nop =>
    have h1 := readOperand_of_assembled_immediate ha hc (k := 0) rfl
    have h2 := readOperand_of_assembled_immediate ha hc (k := 1) rfl
    exact (step_of_assembled hr ha hc).trans (jumpIf_ok h1 h2)
  | neg a d =>
    intro v i hv hi
    have h2 := readOperand_of_assembled_immediate ha hc (k := 1) rfl
    rw [step_of_assembled hr ha hc]
    exact storeBinary_ok_of_eq hv h2 hi (aluMul_neg_one _)

end Sys2Proof.Machine
end

section
/-! PROOFS. The totality of the instructions (40_execute_cycle.md R120; 60_exceptions.md R230 to
R232). -/

namespace Sys2Proof.Machine

/-- An instruction that does not raise leaves the fault status alone and the core RUNNING, suspended
or halted. -/
theorem Writes.runStatus {s u : State} {i : Instr} (h : Writes s i u) :
    u.faultCause = s.faultCause ∧ u.faultInfo = s.faultInfo ∧
      (u.runState = s.runState ∨ u.runState = .idle ∨ u.runState = .halted) := by
  cases h with
  | input _ hn =>
    obtain ⟨_, _, -, rfl⟩ := nextInput_frame hn
    exact ⟨rfl, rfl, .inl rfl⟩
  | output => exact ⟨rfl, rfl, .inr (.inl rfl)⟩
  | halt => exact ⟨rfl, rfl, .inr (.inr rfl)⟩
  | _ => exact ⟨rfl, rfl, .inl rfl⟩

/-- Settles O32: the two cases of `exec_cases`, a raise being one of the three errors an instruction
has. -/
theorem everyInstructionAnswersNext : Obligations.EveryInstructionAnswersNext := by
  intro i s
  rcases exec_cases i s with ⟨u, he, h⟩ | ⟨e, he, h⟩
  · exact ⟨u, h, .inr (.inr (.inr he.writes.runStatus))⟩
  · refine ⟨_, h, ?_⟩
    rcases he with rfl | ⟨_, m, -, -, rfl⟩ | ⟨rfl, -⟩
    · exact .inl rfl
    · exact .inr (.inl ⟨m.digit, rfl⟩)
    · exact .inr (.inr (.inl rfl))

end Sys2Proof.Machine
end

section
/-! PROOFS. The execute cycle: the fetch, a step as its decoded instruction, how the pc moves, and
what a raise leaves unchanged (40_execute_cycle.md R120 to R128). -/

namespace Sys2Proof.Machine

/-! ### The fetch -/

theorem fetch_of_inRange {s : State} (h : s.inRange s.pc.toInt) :
    fetch s = .ok (s.mem.read s.pc.toInt.toNat) :=
  memRead_ok.mpr ⟨h, rfl⟩

theorem fetch_of_not_inRange {s : State} (h : ¬ s.inRange s.pc.toInt) :
    fetch s = .error .outOfRange :=
  memRead_error.mpr ⟨h, rfl⟩

theorem step_of_fetch_error {s : State} {e : FatalError} (hr : s.runState = .running)
    (hf : fetch s = .error e) : step s = .next (s.enterFault e) := by
  simp [step_running hr, cycle, hf]

/-- Settles O12: the fetch reads the cell at the pc, and the cycle adds nothing to `exec`. -/
theorem stepRunsDecodedInstruction : Obligations.StepRunsDecodedInstruction :=
  fun _ _ hr hpc hd => step_of_decode_ok hr (fetch_of_inRange hpc) hd

/-- Settles O13: the fetch's own bounds check decides, and its raise is taken by fault entry. -/
theorem fetchOutsideMemoryFaults : Obligations.FetchOutsideMemoryFaults := by
  refine fun s => ⟨fun hr hout => ?_, fun hlo hhi => fetch_of_inRange ⟨hlo, hhi⟩⟩
  have hpc : ¬ s.inRange s.pc.toInt := fun ⟨hlo, hhi⟩ => by omega
  exact step_of_fetch_error hr (fetch_of_not_inRange hpc)

/-! ### The pc -/

/-- R125: what an instruction writes over its own cells does not reach the pc. -/
theorem Writes.pc_eq_add_width {i : Instr} {s u : State} (h : Writes s i u)
    (hjump : ∀ m1 m2, i ≠ .jt m1 m2 ∧ i ≠ .jf m1 m2) (hhalt : i ≠ .halt) :
    u.pc = s.pc + BitVec.ofNat 64 i.width := by
  cases h with
  | store hi => rcases hi with rfl | rfl | rfl | rfl <;> rfl
  | input _ hn =>
    obtain ⟨_, _, -, rfl⟩ := nextInput_frame hn
    rfl
  | jump hi => exact absurd hi (not_or.mpr (hjump _ _))
  | halt => exact absurd rfl hhalt
  | _ => rfl

/-- Settles O33: an instruction that does not fault has its effect, which for a jump tells the target
and for HALT the open advance. -/
theorem pcMovesByWidthOrJump : Obligations.PcMovesByWidthOrJump := by
  intro i s u _ h hu
  rcases exec_next h with he | ⟨e, -, rfl⟩
  · cases i with
    | jt | jf =>
      obtain ⟨c, t, hc, ht, rfl⟩ := he
      exact ⟨c, t, hc, ht, apply_ite (fun v : State => v.pc) _ _ _⟩
    | halt =>
      obtain rfl := he
      rfl
    | _ => exact he.writes.pc_eq_add_width (by simp) (by simp)
  · exact absurd rfl hu

/-! ### Precise faults -/

/-- R126, R232: a step of a RUNNING core enters FAULTED only by the fault entry of an error it
raises. -/
theorem eq_enterFault_of_step_faulted {s u : State} (hr : s.runState = .running)
    (h : step s = .next u) (hu : u.runState = .faulted) :
    ∃ e, StepRaises s e ∧ u = s.enterFault e := by
  cases step_next h with
  | instr _ _ he =>
    obtain ⟨-, -, hrun⟩ := he.writes.runStatus
    simp [hr, hu] at hrun
  | raise _ he => exact ⟨_, he, rfl⟩
  | quiet hn => exact absurd hr hn
  | start hi => simp [hr] at hi
  | push hi => simp [hr] at hi

/-- Settles O34: fault entry records the fault and keeps the rest. -/
theorem faultsArePrecise : Obligations.FaultsArePrecise := by
  intro s u hr h hu
  obtain ⟨e, -, rfl⟩ := eq_enterFault_of_step_faulted hr h hu
  exact ⟨rfl, rfl, rfl, rfl, rfl, rfl, rfl, rfl⟩

end Sys2Proof.Machine
end

section
/-! PROOFS. Where a RUN returns (40_execute_cycle.md R128, R129; 46_run_control.md R204, R205,
R211). -/

namespace Sys2Proof.Machine

/-- More fuel does not change where a RUN returns. -/
theorem runUntilReturn_mono {n m : Nat} {s t : State} (hle : n ≤ m)
    (h : runUntilReturn n s = some t) : runUntilReturn m s = some t := by
  induction n generalizing s m with
  | zero => simp at h
  | succ n ih =>
    obtain ⟨m, rfl⟩ := Nat.exists_eq_add_one.mpr (Nat.zero_lt_of_lt hle)
    by_cases hr : s.runState = .running
    · obtain ⟨u, hu⟩ := step_total_of_running hr
      rw [runUntilReturn_running hr hu] at h ⊢
      exact ih (Nat.le_of_succ_le_succ hle) h
    · rwa [runUntilReturn_not_running hr] at h ⊢

theorem RunEnds.unique {s t t' : State} (h : RunEnds s t) (h' : RunEnds s t') : t = t' := by
  obtain ⟨n, hn⟩ := h
  obtain ⟨n', hn'⟩ := h'
  have ht := runUntilReturn_mono (Nat.le_max_left n n') hn
  have ht' := runUntilReturn_mono (Nat.le_max_right n n') hn'
  exact Option.some.inj (ht.symm.trans ht')

theorem runEnds_self {s : State} (h : s.runState ≠ .running) : RunEnds s s :=
  ⟨1, runUntilReturn_not_running h 0⟩

/-- R129: a step of a RUNNING core does not change where the RUN returns. -/
theorem runEnds_step_iff {s u t : State} (hr : s.runState = .running) (h : step s = .next u) :
    RunEnds u t ↔ RunEnds s t := by
  constructor
  · rintro ⟨n, hn⟩
    exact ⟨n + 1, (runUntilReturn_running hr h n).trans hn⟩
  · rintro ⟨n, hn⟩
    cases n with
    | zero => simp at hn
    | succ n => exact ⟨n, (runUntilReturn_running hr h n).symm.trans hn⟩

/-- Settles O53: a machine that is not RUNNING has returned in itself, and a return is unique. -/
theorem runReturnsInOneState : Obligations.RunReturnsInOneState := by
  refine fun s => ⟨fun hn t => ⟨fun h => h.unique (runEnds_self hn), ?_⟩,
    fun _ _ => RunEnds.unique, fun _ => RunEnds.not_running, fun _ _ _ => runUntilReturn_mono,
    fun _ hr h _ => runEnds_step_iff hr h⟩
  rintro rfl
  exact runEnds_self hn

end Sys2Proof.Machine
end

section
/-! PROOFS. The signed-integer ALU, and ADD and MUL (41_arithmetic.md R140 to R143). -/

namespace Sys2Proof.Machine

/-! ### The ALU -/

theorem aluNz_eq_true_iff (a : Word) : aluNz a = true ↔ a.toInt ≠ 0 := by
  rw [aluNz, decide_eq_true_iff]
  exact BitVec.toInt_ne.symm

/-- Settles O3: a sum or product is `wrap64` of the exact result, a comparison the word 1 or 0. -/
theorem aluFunctionsAsTabulated : Obligations.AluFunctionsAsTabulated := by
  refine fun a b => ⟨wrap64_toInt _, wrap64_toInt _, wrap64_toInt _, ?_, ?_, aluNz_eq_true_iff a⟩
  · rw [aluLt_eq_ite]; split <;> rfl
  · rw [aluEq_eq_ite]; split <;> rfl

/-! ### ADD and MUL -/

/-- R124, R237: an instruction of the shared shape of ADD, MUL, LT and EQ raises the error of its
first argument that does not resolve. -/
theorem raisesInOrder_of_storeBinary {f : Word → Word → Word} {i : Instr} {m1 m2 m3 : Mode}
    {s : State} (hi : exec i s = storeBinary f m1 m2 m3 s) : RaisesInOrder i m1 m2 m3 s := by
  unfold RaisesInOrder
  rw [hi]
  unfold storeBinary
  refine ⟨fun e h1 => ?_, fun a e h1 h2 => ?_, fun a b e h1 h2 h3 => ?_⟩
  · rw [h1]; rfl
  · rw [h1, h2]; rfl
  · rw [h1, h2, h3]; rfl

/-- Settles O18: ADD is the shared shape at `aluAdd`. -/
theorem addStoresWrappedSum : Obligations.AddStoresWrappedSum := fun _ _ _ _ =>
  ⟨fun _ _ _ h1 h2 h3 => storeBinary_ok (f := aluAdd) h1 h2 h3,
    raisesInOrder_of_storeBinary (f := aluAdd) rfl, encode_of_args_three rfl⟩

/-- Settles O19: MUL is the shared shape at `aluMul`. -/
theorem mulStoresWrappedProduct : Obligations.MulStoresWrappedProduct := fun _ _ _ _ =>
  ⟨fun _ _ _ h1 h2 h3 => storeBinary_ok (f := aluMul) h1 h2 h3,
    raisesInOrder_of_storeBinary (f := aluMul) rfl, encode_of_args_three rfl⟩

end Sys2Proof.Machine
end

section
/-! PROOFS. IN and OUT (42_io.md R150 to R160; 60_exceptions.md R236). -/

namespace Sys2Proof.Machine

/-! ### NextInput, by its three cases -/

/-- R152: a queued value at the cursor is taken, whether or not there is a producer. -/
theorem nextInput_of_queued {s : State} {v : Word} (h : s.inQueue[s.inCursor]? = some v) :
    nextInput s = .ok (v, { s with inCursor := s.inCursor + 1 }) := by
  rw [nextInput, h]

/-- R152, R153: past the queue a registered producer is asked, and its answer consumed. -/
theorem nextInput_of_producer {s : State} (h : s.inQueue.length ≤ s.inCursor)
    (hp : s.producerPresent = true) :
    nextInput s = .ok (Config.producerAnswer s.producerDraws, { s with
      inQueue := s.inQueue ++ [Config.producerAnswer s.producerDraws]
      inCursor := s.inCursor + 1
      producerDraws := s.producerDraws + 1 }) := by
  rw [nextInput, List.getElem?_eq_none h, hp]; rfl

/-- R236. -/
theorem nextInput_of_exhausted {s : State} (h : s.inQueue.length ≤ s.inCursor)
    (hp : s.producerPresent = false) : nextInput s = .error .inputExhausted := by
  rw [nextInput, List.getElem?_eq_none h, hp]; rfl

/-- R27, R152: from whichever source it came, the value consumed stands in the queue at the old
cursor. -/
theorem getElem?_inQueue_of_nextInput {s t : State} {v : Word} (h : nextInput s = .ok (v, t))
    (hs : s.inCursor ≤ s.inQueue.length) : t.inQueue[s.inCursor]? = some v := by
  rcases nextInput_ok h with ⟨hv, rfl⟩ | ⟨hv, -, -, rfl⟩
  · exact hv
  · have hlen : s.inCursor = s.inQueue.length := le_antisymm hs (List.getElem?_eq_none_iff.mp hv)
    rw [hlen]
    exact List.getElem?_concat_length

/-! ### IN -/

theorem exec_inp_of_ok {m : Mode} {s t : State} {d : Nat} {v : Word}
    (hd : writeAddress s 1 m = .ok d) (hn : nextInput s = .ok (v, t)) :
    exec (.inp m) s = .next ((memWrite t d v).advance 2) := by
  simp only [exec, execIn, hd, hn]; rfl

/-- R150: an unresolved destination decides the fault before any input is taken. -/
theorem exec_inp_of_writeAddress_error {m : Mode} {s : State} {e : FatalError}
    (hd : writeAddress s 1 m = .error e) : exec (.inp m) s = .next (s.enterFault e) := by
  simp only [exec, execIn, hd]; rfl

theorem exec_inp_of_nextInput_error {m : Mode} {s : State} {d : Nat} {e : FatalError}
    (hd : writeAddress s 1 m = .ok d) (hn : nextInput s = .error e) :
    exec (.inp m) s = .next (s.enterFault e) := by
  simp only [exec, execIn, hd, hn]; rfl

/-- R27, R150: an IN that moves the cursor has stored the queue entry it moved past; a fault entry
leaves the cursor where it was. -/
theorem exec_inp_stores_consumed {m : Mode} {s u : State} (hs : s.inCursor ≤ s.inQueue.length)
    (h : exec (.inp m) s = .next u) (hu : u.inCursor = s.inCursor + 1) :
    ∃ d, writeAddress s 1 m = .ok d ∧ u.inQueue[u.inCursor - 1]? = some (u.mem.read d) := by
  rcases exec_next h with ⟨d, v, t, hd, hn, rfl⟩ | ⟨e, -, rfl⟩
  · refine ⟨d, hd, ?_⟩
    rw [hu, Nat.add_sub_cancel]
    simpa using getElem?_inQueue_of_nextInput hn hs
  · rw [State.enterFault_inCursor] at hu
    omega

/-- Settles O22: IN by the three cases of `NextInput`, then a bad destination, then what a consumption
has stored. -/
theorem inputTakesNextValue : Obligations.InputTakesNextValue := fun _ _ =>
  ⟨fun _ _ hd hv => exec_inp_of_ok hd (nextInput_of_queued hv),
    fun _ hd hq hp => exec_inp_of_ok hd (nextInput_of_producer hq hp),
    fun _ hd hq hp => exec_inp_of_nextInput_error hd (nextInput_of_exhausted hq hp),
    fun _ hd => exec_inp_of_writeAddress_error hd,
    fun _ hs h hu => exec_inp_stores_consumed hs h hu,
    encode_of_args_one rfl⟩

/-! ### OUT -/

theorem exec_out_of_ok {m : Mode} {s : State} {a : Word} (ha : readOperand s 1 m = .ok a) :
    exec (.out m) s = .next ((s.emit a).advance 2).suspend := by
  simp only [exec, execOut, ha]; rfl

theorem exec_out_of_error {m : Mode} {s : State} {e : FatalError}
    (ha : readOperand s 1 m = .error e) : exec (.out m) s = .next (s.enterFault e) := by
  simp only [exec, execOut, ha]; rfl

/-- Settles O23: the three register writes of OUT, or the fault entry of its operand. -/
theorem outputSuspends : Obligations.OutputSuspends := fun _ _ =>
  ⟨fun _ ha => exec_out_of_ok ha, fun _ ha => exec_out_of_error ha, encode_of_args_one rfl⟩

end Sys2Proof.Machine
end

section
/-! PROOFS. JT and JF (43_jumps.md R170, R171). -/

namespace Sys2Proof.Machine

/-! ### The shared shape of the two jumps -/

theorem jumpIf_taken {p : Word → Bool} {m1 m2 : Mode} {s : State} {c t : Word}
    (h1 : readOperand s 1 m1 = .ok c) (h2 : readOperand s 2 m2 = .ok t) (hp : p c = true) :
    jumpIf p m1 m2 s = .next (s.jump t) := by
  rw [jumpIf_ok h1 h2, if_pos hp]

theorem jumpIf_not_taken {p : Word → Bool} {m1 m2 : Mode} {s : State} {c t : Word}
    (h1 : readOperand s 1 m1 = .ok c) (h2 : readOperand s 2 m2 = .ok t) (hp : p c = false) :
    jumpIf p m1 m2 s = .next (s.advance 3) := by
  rw [jumpIf_ok h1 h2, hp]; rfl

theorem jumpIf_of_condition_error {p : Word → Bool} {m1 m2 : Mode} {s : State} {e : FatalError}
    (h1 : readOperand s 1 m1 = .error e) : jumpIf p m1 m2 s = .next (s.enterFault e) := by
  rw [jumpIf, h1]; rfl

/-- R123, R170: a target that does not resolve faults whatever the condition. -/
theorem jumpIf_of_target_error {p : Word → Bool} {m1 m2 : Mode} {s : State} {c : Word}
    {e : FatalError} (h1 : readOperand s 1 m1 = .ok c) (h2 : readOperand s 2 m2 = .error e) :
    jumpIf p m1 m2 s = .next (s.enterFault e) := by
  rw [jumpIf, h1, h2]; rfl

theorem aluNz_eq_false_iff (a : Word) : aluNz a = false ↔ a.toInt = 0 := by
  rw [← Bool.not_eq_true, aluNz_eq_true_iff, not_not]

/-! ### JT -/

/-- R170. -/
theorem exec_jt_taken {m1 m2 : Mode} {s : State} {c t : Word} (h1 : readOperand s 1 m1 = .ok c)
    (hc : c.toInt ≠ 0) (h2 : readOperand s 2 m2 = .ok t) :
    exec (.jt m1 m2) s = .next (s.jump t) :=
  jumpIf_taken h1 h2 ((aluNz_eq_true_iff c).mpr hc)

/-- Settles O24: JT is the shared shape, taken where `aluNz` holds. -/
theorem jumpIfTrueTakesNonZero : Obligations.JumpIfTrueTakesNonZero := fun _ _ _ =>
  ⟨fun c _ h1 h2 => ⟨fun hc => exec_jt_taken h1 hc h2,
      fun hc => jumpIf_not_taken h1 h2 ((aluNz_eq_false_iff c).mpr hc)⟩,
    fun _ h1 => jumpIf_of_condition_error h1,
    fun _ _ h1 h2 => jumpIf_of_target_error h1 h2,
    encode_of_args_two rfl⟩

/-! ### JF -/

/-- Settles O25: JF is the shared shape, taken where `aluNz` fails. -/
theorem jumpIfFalseTakesZero : Obligations.JumpIfFalseTakesZero := fun _ _ _ =>
  ⟨fun c _ h1 h2 => ⟨fun hc => jumpIf_taken h1 h2 (congrArg not ((aluNz_eq_false_iff c).mpr hc)),
      fun hc => jumpIf_not_taken h1 h2 (congrArg not ((aluNz_eq_true_iff c).mpr hc))⟩,
    fun _ h1 => jumpIf_of_condition_error h1,
    fun _ _ h1 h2 => jumpIf_of_target_error h1 h2,
    encode_of_args_two rfl⟩

/-! ### A jump to itself -/

/-- R211: a RUNNING core that a step brings back to the same state never returns to the host. -/
theorem hangs_of_step_self {s : State} (hr : s.runState = .running) (h : step s = .next s) :
    Hangs s := by
  refine ⟨hr, fun fuel => ?_⟩
  induction fuel with
  | zero => exact runUntilReturn_zero s
  | succ fuel ih => rwa [runUntilReturn_running hr h]

/-- Settles O55: the jump writes to the pc the value it has, so the step answers the state it started
in. -/
theorem jumpToItselfHangs : Obligations.JumpToItselfHangs := by
  rintro s m1 m2 c hr ⟨w, hf, hd⟩ h1 hc h2
  have hstep : step s = .next (s.jump s.pc) :=
    (step_of_decode_ok hr hf hd).trans (exec_jt_taken h1 hc h2)
  exact hangs_of_step_self hr hstep

end Sys2Proof.Machine
end

section
/-! PROOFS. LT and EQ (44_compare.md R180, R181). -/

namespace Sys2Proof.Machine

/-- Settles O20: LT is the shared shape at `aluLt`, and the signed order decides the stored word. -/
theorem lessThanStoresOneOrZero : Obligations.LessThanStoresOneOrZero := fun _ _ _ _ =>
  ⟨fun a b _ h1 h2 h3 =>
      ⟨fun hlt => storeBinary_ok_of_eq h1 h2 h3 ((aluLt_eq_ite a b).trans (if_pos hlt)),
        fun hle => storeBinary_ok_of_eq h1 h2 h3 ((aluLt_eq_ite a b).trans (if_neg hle.not_gt))⟩,
    raisesInOrder_of_storeBinary (f := aluLt) rfl, encode_of_args_three rfl⟩

/-- Settles O21: EQ is the shared shape at `aluEq`, and the two operand values alone decide the stored
word. -/
theorem equalsStoresOneOrZero : Obligations.EqualsStoresOneOrZero := fun _ _ _ _ =>
  ⟨fun a b _ h1 h2 h3 =>
      ⟨fun heq => storeBinary_ok_of_eq h1 h2 h3 ((aluEq_eq_ite a b).trans (if_pos heq)),
        fun hne => storeBinary_ok_of_eq h1 h2 h3 ((aluEq_eq_ite a b).trans (if_neg hne))⟩,
    raisesInOrder_of_storeBinary (f := aluEq) rfl, encode_of_args_three rfl⟩

end Sys2Proof.Machine
end

section
/-! PROOFS. ARB and HALT (45_base_and_halt.md R190 to R192). -/

namespace Sys2Proof.Machine

/-! ### ARB -/

theorem exec_arb_of_ok {m : Mode} {s : State} {a : Word} (ha : readOperand s 1 m = .ok a) :
    exec (.arb m) s = .next ((s.setBase (aluRb s.rb a)).advance 2) := by
  simp only [exec, execArb, ha]; rfl

theorem exec_arb_of_error {m : Mode} {s : State} {e : FatalError}
    (ha : readOperand s 1 m = .error e) : exec (.arb m) s = .next (s.enterFault e) := by
  simp only [exec, execArb, ha]; rfl

/-- Settles O26: the two register writes of ARB, or the fault entry of its operand. -/
theorem adjustBaseAddsOperand : Obligations.AdjustBaseAddsOperand := fun _ _ =>
  ⟨fun _ ha => exec_arb_of_ok ha, fun _ ha => exec_arb_of_error ha, encode_of_args_one rfl⟩

/-! ### A store through the base -/

/-- R93, R191: with raw offset 0 a relative destination is the cell the base names. -/
theorem writeAddress_relative_of_raw_zero {s : State} {k d : Nat} (hraw : rawArg s k = .ok 0)
    (hrb : s.rb.toInt = d) (hd : d < s.memLen) : writeAddress s k .relative = .ok d := by
  have haddr : s.rb.toInt + (0 : Word).toInt = d := by rw [hrb]; exact add_zero _
  rw [writeAddress, hraw]
  exact checkAddress_ok.mpr ⟨⟨by omega, by omega⟩, haddr.symm⟩

/-- R140, R141, R180, R181: the value each instruction of the shared shape stores. -/
def StoresValue (i : Instr) (m1 m2 m3 : Mode) (x y v : Word) : Prop :=
  i = .add m1 m2 m3 ∧ v = wrap64 (x.toInt + y.toInt) ∨
  i = .mul m1 m2 m3 ∧ v = wrap64 (x.toInt * y.toInt) ∨
  i = .lt m1 m2 m3 ∧ v = (if x.toInt < y.toInt then 1 else 0) ∨
  i = .eq m1 m2 m3 ∧ v = (if x.toInt = y.toInt then 1 else 0)

theorem StoresValue.exec {i : Instr} {m1 m2 m3 : Mode} {s : State} {x y v : Word} {d : Nat}
    (hi : StoresValue i m1 m2 m3 x y v) (h1 : readOperand s 1 m1 = .ok x)
    (h2 : readOperand s 2 m2 = .ok y) (h3 : writeAddress s 3 m3 = .ok d) :
    exec i s = .next ((memWrite s d v).advance 4) := by
  rcases hi with ⟨rfl, rfl⟩ | ⟨rfl, rfl⟩ | ⟨rfl, rfl⟩ | ⟨rfl, rfl⟩
  · exact storeBinary_ok (f := aluAdd) h1 h2 h3
  · exact storeBinary_ok (f := aluMul) h1 h2 h3
  · exact storeBinary_ok_of_eq h1 h2 h3 (aluLt_eq_ite x y)
  · exact storeBinary_ok_of_eq h1 h2 h3 (aluEq_eq_ite x y)

/-- R152, R153: where there is a value to take, queued or the producer's, `NextInput` takes it. -/
theorem exists_nextInput {s : State} {v : Word}
    (h : s.inQueue[s.inCursor]? = some v ∨ s.inQueue.length ≤ s.inCursor ∧
      s.producerPresent = true ∧ v = Config.producerAnswer s.producerDraws) :
    ∃ t, nextInput s = .ok (v, t) := by
  rcases h with hv | ⟨hq, hp, rfl⟩
  · exact ⟨_, nextInput_of_queued hv⟩
  · exact ⟨_, nextInput_of_producer hq hp⟩

/-- R62: what memory reads as after the write to cell `d` with which a storing instruction ends; `t` is
the state it writes to, `s` the one it started in. -/
theorem read_after_store {s t : State} (hm : t.mem = s.mem) (d n : Nat) (v : Word) :
    ((memWrite t d v).advance n).mem.read d = v ∧
    ∀ c, c ≠ d → ((memWrite t d v).advance n).mem.read c = s.mem.read c := by
  rw [← hm]
  exact ⟨Memory.read_write_same _ _ _, fun _ hc => Memory.read_write_of_ne hc _ _⟩

/-- Settles O27: after the ARB the relative destination is cell 2000, to which each storing instruction
makes its one write. -/
theorem relativeStoreUsesAdjustedBase : Obligations.RelativeStoreUsesAdjustedBase := by
  intro m1 s a ha hbase hlen
  have harb := exec_arb_of_ok ha
  rw [aluRb, hbase] at harb
  refine ⟨_, harb, rfl, fun hraw n1 n2 x y hx hy i v hi => ?_, fun hraw v hv => ?_⟩
  · have hd := writeAddress_relative_of_raw_zero (d := 2000) hraw rfl hlen
    obtain ⟨hsame, hother⟩ := read_after_store rfl 2000 4 v
    exact ⟨_, StoresValue.exec hi hx hy hd, hsame, hother 0 (by decide), hother, rfl⟩
  · have hd := writeAddress_relative_of_raw_zero (d := 2000) hraw rfl hlen
    obtain ⟨t, hn⟩ := exists_nextInput hv
    have hexec := exec_inp_of_ok hd hn
    obtain ⟨_, _, -, rfl⟩ := nextInput_frame hn
    obtain ⟨hsame, hother⟩ := read_after_store rfl 2000 2 v
    exact ⟨_, hexec, hsame, hother 0 (by decide), hother, rfl⟩

/-! ### HALT -/

/-- R82, R192: the opcode alone makes a word HALT; only a non-negative word has a positive opcode. -/
theorem decode_eq_halt_iff {w : Word} :
    decode w = .ok .halt ↔ 0 ≤ w.toInt ∧ trem w.toInt 100 = 99 := by
  constructor
  · intro h
    obtain ⟨hw, hop, -⟩ := decode_ok h
    exact ⟨hw, hop.symm⟩
  · rintro ⟨-, hop⟩
    exact decode_eq_of_fields hop fun _ _ hk => nomatch hk

theorem run_succ_next {M : Host.Core} {n : Nat} {s t : M.State} (h : M.run (n + 1) s = .next t) :
    ∃ u, M.step s = .next u ∧ M.run n u = .next t := by
  rw [Host.Core.run] at h
  split at h
  · exact ⟨_, ‹_›, h⟩
  · cases h
  · cases h

theorem step_of_halted {s u : State} (hs : s.runState = .halted) (h : step s = .next u) :
    ∃ queue cs, u = { s with inQueue := queue, hostCommands := cs } := by
  obtain ⟨pushed, hu⟩ := (haltedAndFaultedNeverLeft s u h).1 hs
  exact ⟨_, _, hu⟩

/-- R192, R206: a HALTED machine stays as it is, but for what the host pushes and has pending. -/
theorem core_run_of_halted {n : Nat} {s t : State} (h : core.run n s = .next t)
    (hs : s.runState = .halted) :
    t = { s with inQueue := t.inQueue, hostCommands := t.hostCommands } := by
  induction n generalizing s with
  | zero => cases h; rfl
  | succ n ih =>
    obtain ⟨u, hu, hrun⟩ := run_succ_next h
    obtain ⟨queue, cs, rfl⟩ := step_of_halted hs hu
    have ht := ih hrun hs
    exact ht

/-- Settles O28: HALT raises nothing, and no step leaves HALTED. -/
theorem haltStopsForGood : Obligations.HaltStopsForGood := by
  refine ⟨fun s => rfl, fun s u t n h hrun => ?_, ?_, fun w => decode_eq_halt_iff, rfl⟩
  · cases h
    have ht := core_run_of_halted hrun rfl
    rw [ht]
    exact ⟨rfl, rfl, rfl⟩
  · have := Config.haltPcAdvance.isLt
    omega

end Sys2Proof.Machine
end

section
/-! PROOFS. The host's commands and the RUN they start (46_run_control.md R200 to R210). -/

namespace Sys2Proof.Machine

/-! ### A RUNNING core and the host -/

/-- Other pending commands in place of those the host has. -/
def Relabel.setCommands (cs : List HostCommand) : Relabel where
  queue := id
  draws := id
  commands _ := cs

theorem setCommands_keepsInput (cs : List HostCommand) (s : State) :
    (Relabel.setCommands cs).KeepsInput s :=
  Relabel.keepsInput_of rfl rfl (fun _ => rfl) rfl

/-- R203, R210: a step of a RUNNING core is the same beside any pending commands. -/
theorem step_set_hostCommands {s u : State} (hr : s.runState = .running) (h : step s = .next u)
    (cs : List HostCommand) :
    step { s with hostCommands := cs } = .next { u with hostCommands := cs } :=
  step_relabel _ hr (setCommands_keepsInput cs s) h

/-- R203: a step of a RUNNING core takes no command: putting back the commands it began with changes
nothing. -/
theorem step_running_hostCommands {s u : State} (hr : s.runState = .running)
    (h : step s = .next u) : u.hostCommands = s.hostCommands := by
  have hsame : step s = .next { u with hostCommands := s.hostCommands } :=
    step_set_hostCommands hr h s.hostCommands
  rw [h] at hsame
  injection hsame with hu
  rw [hu]

/-- Settles O56: replacing the pending commands commutes with a step, which takes none of them. -/
theorem pendingCommandsDoNotInterfere : Obligations.PendingCommandsDoNotInterfere :=
  fun _ _ cs hr h => ⟨step_running_hostCommands hr h, step_set_hostCommands hr h cs⟩

/-! ### PUSH and RUN -/

/-- R200: a machine that is not RUNNING takes the host's next command. -/
theorem step_of_hostCommands_cons {s : State} {c : HostCommand} {rest : List HostCommand}
    (hr : s.runState ≠ .running) (hc : s.hostCommands = c :: rest) :
    step s = hostCommand c { s with hostCommands := rest } := by
  rw [step_not_running hr, hostStep, hc]

theorem hostPush_of_accepting {s : State} {v : Word}
    (h : s.runState = .idle ∨ s.runState = .halted) :
    hostPush v s = .next { s with inQueue := s.inQueue ++ [v] } := by
  rcases h with h | h <;> rw [hostPush, h]

theorem hostPush_of_faulted {s : State} {v : Word} (h : s.runState = .faulted) :
    hostPush v s = .refused .pushAfterFault := by
  rw [hostPush, h]

theorem hostPush_of_running {s : State} {v : Word} (h : s.runState = .running) :
    hostPush v s = .refused .hostWhileRunning := by
  rw [hostPush, h]

theorem hostRun_of_idle {s : State} (h : s.runState = .idle) :
    hostRun s = .next { s with runState := .running } := by
  rw [hostRun, h]

theorem hostRun_of_halted {s : State} (h : s.runState = .halted) : hostRun s = .next s := by
  rw [hostRun, h]

theorem hostRun_of_faulted {s : State} (h : s.runState = .faulted) :
    hostRun s = .refused .runAfterFault := by
  rw [hostRun, h]

theorem step_push {s : State} {v : Word} {rest : List HostCommand} (hr : s.runState ≠ .running)
    (hc : s.hostCommands = .push v :: rest) : step s = hostPush v { s with hostCommands := rest } :=
  step_of_hostCommands_cons hr hc

theorem step_run {s : State} {rest : List HostCommand} (hr : s.runState ≠ .running)
    (hc : s.hostCommands = .run :: rest) : step s = hostRun { s with hostCommands := rest } :=
  step_of_hostCommands_cons hr hc

/-- R204: the step of an IDLE core whose next command is RUN. -/
theorem step_run_of_idle {s : State} {rest : List HostCommand} (hi : s.runState = .idle)
    (hc : s.hostCommands = .run :: rest) :
    step s = .next { s with runState := .running, hostCommands := rest } :=
  (step_run (by simp [hi]) hc).trans (hostRun_of_idle hi)

/-- R206: the step of a HALTED core whose next command is RUN. -/
theorem step_run_of_halted {s : State} {rest : List HostCommand} (hh : s.runState = .halted)
    (hc : s.hostCommands = .run :: rest) : step s = .next { s with hostCommands := rest } :=
  (step_run (by simp [hh]) hc).trans (hostRun_of_halted hh)

/-- Settles O45: the command's own rule in each run state, and R203 for a RUNNING core. -/
theorem pushAppends : Obligations.PushAppends := by
  refine fun s v rest hc => ⟨fun hr => ?_, fun hr => ?_, fun hr => ⟨?_, fun u h => ?_⟩⟩
  · have hn : s.runState ≠ .running := by rcases hr with hr | hr <;> simp [hr]
    exact (step_push hn hc).trans (hostPush_of_accepting hr)
  · exact (step_push (by simp [hr]) hc).trans (hostPush_of_faulted hr)
  · exact hostPush_of_running hr
  · exact step_running_hostCommands hr h

/-- Settles O46: the command's own rule in IDLE and in FAULTED. -/
theorem runStartsIdleCore : Obligations.RunStartsIdleCore := fun _ _ hc =>
  ⟨fun hi => step_run_of_idle hi hc,
    fun hf => (step_run (by simp [hf]) hc).trans (hostRun_of_faulted hf)⟩

/-! ### What a RUN gives back -/

theorem runReturn_of_idle {s : State} (h : s.runState = .idle) :
    runReturn s = some (.output s.lastOut) := by
  rw [runReturn, h]

theorem runReturn_of_halted {s : State} (h : s.runState = .halted) :
    runReturn s = some .halted := by
  rw [runReturn, h]

theorem runReturn_of_faulted {s : State} (h : s.runState = .faulted) :
    runReturn s = some (.fault s.faultCause s.faultInfo) := by
  rw [runReturn, h]

theorem run_succ_of_step {M : Host.Core} {s u : M.State} (h : M.step s = .next u) (n : Nat) :
    M.run (n + 1) s = M.run n u := by
  rw [Host.Core.run, h]

/-- R206: RUNs after a halt only take themselves off the pending commands. -/
theorem core_run_runs_of_halted {n : Nat} {s : State} {rest : List HostCommand}
    (hh : s.runState = .halted) (hc : s.hostCommands = List.replicate n .run ++ rest) :
    core.run n s = .next { s with hostCommands := rest } := by
  induction n generalizing s with
  | zero =>
    obtain rfl : s.hostCommands = rest := hc
    rfl
  | succ n ih =>
    have hstep := step_run_of_halted hh hc
    exact (run_succ_of_step (M := core) hstep n).trans (ih hh rfl)

/-- Settles O47: by induction on the number of RUNs. -/
theorem runsAfterHaltChangeNothing : Obligations.RunsAfterHaltChangeNothing :=
  fun _ _ _ hh hc => ⟨core_run_runs_of_halted hh hc, runReturn_of_halted hh⟩

theorem step_of_atInstr {s : State} {i : Instr} (hr : s.runState = .running) (hi : AtInstr s i) :
    step s = exec i s := by
  obtain ⟨w, hf, hd⟩ := hi
  exact step_of_decode_ok hr hf hd

/-- Settles O49: OUT leaves the core IDLE with the pc past it, and the next RUN starts it there. -/
theorem outputIsResumable : Obligations.OutputIsResumable := by
  intro s u m a rest hr hi ha hc h
  rw [step_of_atInstr hr hi, exec_out_of_ok ha] at h
  cases h
  have hrun := step_run_of_idle (s := ((s.emit a).advance 2).suspend) rfl hc
  rw [← hr] at hrun
  exact ⟨rfl, rfl, hrun⟩

/-! ### The last step of a RUN -/

/-- The word at the pc decodes to one instruction. -/
theorem AtInstr.unique {s : State} {i j : Instr} (hi : AtInstr s i) (hj : AtInstr s j) : i = j := by
  obtain ⟨w, hw, hd⟩ := hi
  obtain ⟨w', hw', hd'⟩ := hj
  cases hw.symm.trans hw'
  cases hd.symm.trans hd'
  rfl

theorem FatalError.cause_ne_none (e : FatalError) : e.cause ≠ .none := by cases e <;> simp [cause]

/-- R205: only OUT and HALT end a RUN by their effect. -/
theorem Writes.runState_eq {i : Instr} {s u : State} (h : Writes s i u) (hout : ∀ m, i ≠ .out m)
    (hhalt : i ≠ .halt) : u.runState = s.runState := by
  cases h with
  | input _ hn =>
    obtain ⟨_, _, -, rfl⟩ := nextInput_frame hn
    rfl
  | @output m => exact absurd rfl (hout m)
  | halt => exact absurd rfl hhalt
  | _ => rfl

/-- R205: the run state after a step of a RUNNING core, by what the step was. -/
theorem step_running_cases {s u : State} (hr : s.runState = .running) (h : step s = .next u) :
    (u.runState = .running ∧ (∀ m, ¬ AtInstr s (.out m)) ∧ ¬ AtInstr s .halt) ∨
    (u.runState = .idle ∧ ∃ m a, AtInstr s (.out m) ∧ readOperand s 1 m = .ok a ∧
      u.lastOut = some a) ∨
    (u.runState = .halted ∧ AtInstr s .halt) ∨
    (u.runState = .faulted ∧ u.faultCause ≠ .none) := by
  cases step_next h with
  | @instr i _ _ hi he =>
    by_cases hout : ∃ m, i = .out m
    · obtain ⟨m, rfl⟩ := hout
      obtain ⟨a, ha, rfl⟩ := he
      exact .inr (.inl ⟨rfl, m, a, hi, ha, rfl⟩)
    by_cases hhalt : i = .halt
    · subst hhalt
      obtain rfl := he
      exact .inr (.inr (.inl ⟨rfl, hi⟩))
    have hrun := he.writes.runState_eq (not_exists.mp hout) hhalt
    exact .inl ⟨hrun.trans hr, fun m hm => hout ⟨m, hi.unique hm⟩, fun hh => hhalt (hi.unique hh)⟩
  | @raise e => exact .inr (.inr (.inr ⟨rfl, e.cause_ne_none⟩))
  | quiet hn => exact absurd hr hn
  | start hi => simp [hr] at hi
  | push hi => simp [hr] at hi

/-- Settles O52: the four ends of a step, each with what the RUN gives back there. -/
theorem runEndsByLastStep : Obligations.RunEndsByLastStep := by
  intro s u hr h
  rcases step_running_cases hr h with ⟨hu, hout, hhalt⟩ | ⟨hu, m, a, hi, ha, hlast⟩ | ⟨hu, hi⟩ |
    ⟨hu, hcause⟩ <;> rw [hu]
  · exact ⟨runReturn_eq_none.mpr hu, hout, hhalt⟩
  · exact ⟨m, a, hi, ha, (runReturn_of_idle hu).trans (by rw [hlast])⟩
  · exact ⟨hi, runReturn_of_halted hu⟩
  · exact ⟨runReturn_of_faulted hu, hcause⟩

/-! ### INSPECT -/

theorem statusField_of_ten_le (s : CoreState) {n : Nat} (h : 10 ≤ n) : statusField s n = none := by
  obtain ⟨k, rfl⟩ := Nat.exists_eq_add_of_le' h
  rfl

theorem outValid_toNat (s : CoreState) :
    (s.outValid.toNat : Int) = if s.lastOut = none then 0 else 1 := by
  unfold CoreState.outValid
  cases s.lastOut <;> rfl

theorem inspectField_queueEntry {s : State} {i : Nat} (h : i < s.inQueue.length) :
    inspectField s (.queueEntry i) = some (some s.inQueue[i].toInt) := by
  rw [inspectField, List.getElem?_eq_getElem h, Option.map_some]

theorem inspectField_queueEntry_eq_none {s : State} {i : Nat} (h : s.inQueue.length ≤ i) :
    inspectField s (.queueEntry i) = none := by
  rw [inspectField, List.getElem?_eq_none h, Option.map_none]

theorem inspectField_cell {s : State} {a : Int} (h : s.inRange a) :
    inspectField s (.cell a) = some (some (s.mem.read a.toNat).toInt) := by
  rw [inspectField, if_pos h]

theorem inspectField_cell_eq_none {s : State} {a : Int} (h : ¬ s.inRange a) :
    inspectField s (.cell a) = none := by
  rw [inspectField, if_neg h]

theorem inspect_of_field {q : Query} {s : State} {v : Option Int} (hr : s.runState ≠ .running)
    (h : inspectField s q = some v) : inspect q s = .ok v := by
  unfold inspect
  split
  · contradiction
  · rw [h]

theorem inspect_of_no_field {q : Query} {s : State} (hr : s.runState ≠ .running)
    (h : inspectField s q = none) : inspect q s = .error .inspectOutOfRange := by
  unfold inspect
  split
  · contradiction
  · rw [h]

theorem hostInspect_of_ok {q : Query} {s : State} {v : Option Int} (h : inspect q s = .ok v) :
    hostInspect q s = .next s := by
  rw [hostInspect, h]

theorem hostInspect_of_error {q : Query} {s : State} {r : Refusal} (h : inspect q s = .error r) :
    hostInspect q s = .refused r := by
  rw [hostInspect, h]

/-- R209: an INSPECT does not read the pending commands. -/
theorem inspect_set_hostCommands (q : Query) (s : State) (cs : List HostCommand) :
    inspect q { s with hostCommands := cs } = inspect q s := by
  cases q <;> rfl

theorem step_inspect {s : State} {q : Query} {rest : List HostCommand}
    (hr : s.runState ≠ .running) (hc : s.hostCommands = .inspect q :: rest) :
    step s = hostInspect q { s with hostCommands := rest } :=
  step_of_hostCommands_cons hr hc

/-- R209: an INSPECT that is answered changes nothing but that it has been taken. -/
theorem step_inspect_of_ok {s : State} {q : Query} {rest : List HostCommand} {v : Option Int}
    (hr : s.runState ≠ .running) (hc : s.hostCommands = .inspect q :: rest)
    (h : inspect q s = .ok v) : step s = .next { s with hostCommands := rest } :=
  (step_inspect hr hc).trans (hostInspect_of_ok ((inspect_set_hostCommands q s rest).trans h))

theorem step_inspect_of_error {s : State} {q : Query} {rest : List HostCommand} {r : Refusal}
    (hr : s.runState ≠ .running) (hc : s.hostCommands = .inspect q :: rest)
    (h : inspect q s = .error r) : step s = .refused r :=
  (step_inspect hr hc).trans (hostInspect_of_error ((inspect_set_hostCommands q s rest).trans h))

/-- Settles O50: each index by the field it reads. -/
theorem inspectReadsEveryField : Obligations.InspectReadsEveryField := by
  intro s hr
  have reads {q : Query} {v : Option Int} (h : inspectField s q = some v) : inspect q s = .ok v :=
    inspect_of_field hr h
  have refuses {q : Query} (h : inspectField s q = none) :
      inspect q s = .error .inspectOutOfRange := inspect_of_no_field hr h
  refine ⟨reads rfl, reads rfl, fun hv => reads ?_, fun v hv => reads ?_, reads ?_, reads ?_,
    reads ?_, reads rfl, reads rfl, reads rfl, reads rfl,
    fun n hn => refuses (statusField_of_ten_le _ hn),
    fun i hi => reads (inspectField_queueEntry hi),
    fun i hi => refuses (inspectField_queueEntry_eq_none hi),
    fun a hlo hhi => reads (inspectField_cell ⟨hlo, hhi⟩),
    fun a ha => refuses (inspectField_cell_eq_none fun ⟨hlo, hhi⟩ => by omega),
    fun q rest hc => ⟨fun ⟨_, hv⟩ => step_inspect_of_ok hr hc hv,
      fun _ => step_inspect_of_error hr hc⟩⟩
  · have hnone : s.lastOut = none :=
      Option.isNone_iff_eq_none.mp (Option.isSome_eq_false_iff.mp hv)
    simp [inspectField, statusField, hnone]
  · simp [inspectField, statusField, hv]
  · simp [inspectField, statusField, outValid_toNat]
  · cases hh : s.halted <;> simp [inspectField, statusField, hh]
  · cases hs : s.runState <;> simp [inspectField, statusField, hs, RunState.code]

end Sys2Proof.Machine
end

section
/-! PROOFS. The load interface: where a placed word stands, and that the next fetch reads it
(46_run_control.md R204; 70_reset_and_hazards.md R260 to R262). -/

namespace Sys2Proof.Machine

/-- R8: a placed instruction of four cells fits the largest memory. -/
theorem placeAt_add_four_le (s : State) : s.placeAt + 4 ≤ Config.maxMemLen := by
  unfold State.placeAt
  split
  · next h =>
    obtain ⟨hlo, hhi⟩ := h
    have hpc : s.pc.toInt = s.pc.toNat :=
      BitVec.toInt_eq_toNat_of_lt (BitVec.toInt_pos_iff.mp hlo)
    omega
  · decide

/-- The pc of a placed instruction is the index of its first cell. -/
theorem placeCells_pc_toInt (s : State) (cells : List Word) :
    (s.placeCells cells).pc.toInt = s.placeAt := by
  have hle := placeAt_add_four_le s
  change (BitVec.ofNat 64 s.placeAt).toInt = s.placeAt
  simp only [Config.maxMemLen] at hle
  rw [BitVec.toInt_ofNat']
  exact Int.bmod_eq_of_le (by omega) (by omega)

theorem Memory.read_writeAll_cons (m : Memory) (a : Nat) (w : Word) (ws : List Word) :
    (m.writeAll a (w :: ws)).read a = w :=
  (Memory.read_writeAll_below (Nat.lt_succ_self a)).trans (Memory.read_write_same m a w)

/-- R121: the next fetch reads the first of the placed cells. -/
theorem fetch_placeCells (s : State) (c : Word) (cells : List Word) :
    fetch (s.placeCells (c :: cells)) = .ok c := by
  rw [fetch, placeCells_pc_toInt, memRead_ok]
  have hlt : s.placeAt < s.placeAt + (c :: cells).length := by simp
  exact ⟨⟨by omega, Int.ofNat_lt.mpr (lt_max_of_lt_right hlt)⟩,
    Memory.read_writeAll_cons s.mem s.placeAt c cells⟩

/-- R50: placing four cells at most keeps memory canonical and within a length of at most `2^62`. -/
theorem State.Inv.placeCells {s : State} (h : s.Inv) {cells : List Word}
    (hlen : cells.length ≤ 4) : (s.placeCells cells).Inv where
  memWf := Memory.wf_writeAll h.memWf s.placeAt cells
  memBound := fun c hc => by
    refine lt_max_iff.mpr ?_
    rcases Memory.mem_writeAll hc with ⟨-, hlt⟩ | hm
    · exact .inr hlt
    · exact .inl (h.memBound c hm)
  lenBound := by
    have := placeAt_add_four_le s
    exact max_le h.lenBound (by omega)
  cursorBound := h.cursorBound
  haltedIff := by simp [State.placeCells]
  faultStatus := ⟨by simp [State.placeCells], rfl⟩

theorem decodeCells_cons_eq_some {c : Word} {cells : List Word} {i : Instr}
    (h : decodeCells (c :: cells) = some i) : decode c = .ok i := by
  cases hd : decode c with
  | ok j => simpa [decodeCells, hd] using h
  | error e => simp [decodeCells, hd] at h

/-- Settles O60: the fetch reads the first of the word's four cells, which decodes to the
instruction. -/
theorem placedWordRunsNext : Obligations.PlacedWordRunsNext := fun s _ _ _ hd =>
  ⟨step_of_decode_ok rfl (fetch_placeCells s _ _) (decodeCells_cons_eq_some hd),
    fun h => h.placeCells le_rfl⟩

end Sys2Proof.Machine
end

section
/-! PROOFS. The fatal errors: which instruction raises which, what fault entry records, and the word
of no instruction (60_exceptions.md R230 to R233). -/

namespace Sys2Proof.Machine

/-! ### Where an error comes from -/

/-- R231: HALT raises nothing, so it is not the instruction of a step that faults. -/
theorem not_atInstr_halt_of_step_faulted {s u : State} (hr : s.runState = .running)
    (h : step s = .next u) (hu : u.runState = .faulted) : ¬ AtInstr s .halt := by
  intro hi
  have hhalt : step s = .next (s.advance Config.haltPcAdvance.val).halt := step_of_atInstr hr hi
  cases hhalt.symm.trans h
  simp at hu

theorem not_atInstr_of_decode_error {s : State} {w : Word} {d : DecodeError}
    (hf : fetch s = .ok w) (hd : decode w = .error d) (i : Instr) : ¬ AtInstr s i := by
  rintro ⟨w', hf', hd'⟩
  cases hf.symm.trans hf'
  cases hd.symm.trans hd'

/-- R83: the modes of a fetched instruction are decimal digits. -/
theorem AtInstr.digit_le_nine {s : State} {i : Instr} {r : Role} {m : Mode} (hi : AtInstr s i)
    (hm : (r, m) ∈ i.args) : m.digit ≤ 9 := by
  obtain ⟨w, -, hd⟩ := hi
  obtain ⟨-, -, hwf⟩ := decode_ok hd
  exact Mode.digit_le_nine (List.all_eq_true.mp hwf _ hm)

/-- Settles O36: by where the step raised. Only an out-of-range fetch or argument leaves the
instruction open, and a step that faults is none of HALT. -/
theorem errorsComeFromTheirInstructions : Obligations.ErrorsComeFromTheirInstructions := by
  intro s u hr h hu
  have hhalt := not_atInstr_halt_of_step_faulted hr h hu
  obtain ⟨e, he, rfl⟩ := eq_enterFault_of_step_faulted hr h hu
  cases he with
  | fetch hf =>
    obtain ⟨-, rfl⟩ := memRead_error.mp hf
    exact hhalt
  | decode hf hd => exact not_atInstr_of_decode_error hf hd
  | @exec i _ hi hc =>
    rcases hc with rfl | ⟨r, m, hm, hl, rfl⟩ | ⟨rfl, m, rfl⟩
    · exact hhalt
    · have hdigit := hi.digit_le_nine hm
      exact ⟨i, r, m, hi, hm, hl, wrap64_toInt_of_bounds (by omega)⟩
    · exact ⟨m, hi⟩

/-! ### The raw opcode, and what fault entry records -/

/-- Settles O14: the decoder rejects exactly these opcodes, and the decode stage takes the fault. -/
theorem unimplementedOpcodeFaults : Obligations.UnimplementedOpcodeFaults := by
  intro s hr hpc op hop
  have hlo : -99 ≤ op := (opcodeField_bounds _).1
  have hd := decode_eq_error_iff.mpr ⟨rfl, hop.imp_left fun hneg => ⟨hlo, hneg⟩⟩
  exact ⟨step_of_decode_error hr (fetch_of_inRange hpc) hd, wrap64_toInt_of_bounds (by omega)⟩

/-- Settles O35: each entry is `enterFault` at that error, and the digits and raw opcodes are small
enough for a word to hold. -/
theorem faultEntryRecordsCodes : Obligations.FaultEntryRecordsCodes := fun _ =>
  ⟨rfl, rfl, fun _ _ _ => ⟨rfl, wrap64_toInt_of_bounds (by omega)⟩,
    fun _ _ _ => ⟨rfl, wrap64_toInt_of_bounds (by omega)⟩, fun _ => runReturn_of_faulted rfl,
    rfl, rfl, rfl, rfl, rfl⟩

/-! ### A machine with no command pending -/

theorem step_of_no_command {s : State} (hn : s.runState ≠ .running) (hf : s.runState ≠ .faulted)
    (hc : s.hostCommands = []) : step s = .next s := by
  rw [step_not_running hn, hostStep, hc]
  cases hr : s.runState with
  | running => exact absurd hr hn
  | faulted => exact absurd hr hf
  | _ => rfl

theorem step_of_faulted_no_command {s : State} (hf : s.runState = .faulted)
    (hc : s.hostCommands = []) : step s = .fault (.fatal s.faultCause s.faultInfo) := by
  rw [step_not_running (by simp [hf]), hostStep, hc, hf]

/-- Settles O59: IDLE and HALTED are neither RUNNING nor FAULTED. -/
theorem nothingHappensUnasked : Obligations.NothingHappensUnasked := by
  refine fun s hc => ⟨fun hr => ?_, fun hf => step_of_faulted_no_command hf hc⟩
  rcases hr with hr | hr <;> exact step_of_no_command (by simp [hr]) (by simp [hr]) hc

end Sys2Proof.Machine
end

section
/-! PROOFS. What CONSTRUCT sets and what it refuses (70_reset_and_hazards.md R260; 10_state.md
R35). -/

namespace Sys2Proof.Machine

theorem construct_of_too_small {image : List Word} {target : Option Nat}
    (h : constructLen image target < image.length) (present : Bool) :
    construct image target present = .refused .targetSizeTooSmall := if_pos h

theorem construct_of_fits {image : List Word} {target : Option Nat}
    (hfit : image.length ≤ constructLen image target)
    (hlen : constructLen image target ≤ Config.maxMemLen) (present : Bool) :
    construct image target present = .next { State.reset with
      memLen := constructLen image target
      mem := Memory.ofImage 0 image
      producerPresent := present } := by
  rw [construct, if_neg (by omega), if_neg (by omega)]

/-- R59, R260: the image stands in the first cells, and every cell above it reads 0. -/
theorem Memory.read_ofImage_zero (image : List Word) (i : Nat) :
    (Memory.ofImage 0 image).read i = image.getD i 0 := by
  simpa using Memory.read_ofImage 0 image i

/-- Settles O41: the two size checks pass, the memory is the image's, and every other field is the
reset state's. -/
theorem constructionSetsEveryField : Obligations.ConstructionSetsEveryField := by
  intro image target present
  refine ⟨fun n hn hlt => ?_, fun hfit hlen => ?_⟩
  · subst hn
    exact construct_of_too_small (target := some n) hlt present
  · refine ⟨_, construct_of_fits hfit hlen present, by cases target <;> rfl, fun i hi => ?_,
      fun i hi => ?_, rfl, rfl, rfl, rfl, rfl, rfl, rfl, rfl, rfl, rfl, rfl⟩
    · exact (Memory.read_ofImage_zero image i).trans (List.getD_eq_getElem _ _ hi)
    · exact (Memory.read_ofImage_zero image i).trans (List.getD_eq_default _ _ hi)

end Sys2Proof.Machine
end
